-- ==== Sys2Proof/Word.lean ====
section
/-! DEFINITION. The word types of the EMP64-2000 (spec/00_scope.md R5, R6; spec/20_memory.md R61, R62). -/

namespace Sys2Proof

/-- A byte, 8 bits (R61). -/
abbrev Byte := BitVec 8

/-- A quadword: a general register, the instruction pointer, an address (R5, XLEN and ADDRSIZE). -/
abbrev Word := BitVec 64

/-- An interrupt or exception code, 0 to 255 (R210). -/
abbrev Code := BitVec 8

end Sys2Proof
end

