-- ==== Sys2Proof/Syntax.lean ====
section
/-! DEFINITION. The abstract instructions of spec/30_encoding.md R102. -/

namespace Sys2Proof

/-- The operand size `S` (R102, R62): 1, 2, 4 or 8 bytes. -/
inductive Size where
  | b
  | w
  | d
  | q
deriving DecidableEq, Repr

/-- `S` in bytes (R102). -/
@[reducible] def Size.bytes : Size → Nat
  | .b => 1
  | .w => 2
  | .d => 4
  | .q => 8

/-- `8*S`, the width of a value of size `S` in bits (R7, R62). -/
@[reducible] def Size.bits : Size → Nat
  | .b => 8
  | .w => 16
  | .d => 32
  | .q => 64

/-- A general register number, 0 to 15, in the order of the table of R20. -/
abbrev Reg := Fin 16

/-- Register 0, RAX (R20), the register CPUID reads (R144). -/
abbrev Reg.rax : Reg := 0

/-- Register 7, RSP: the stack pointer (R25). -/
abbrev Reg.rsp : Reg := 7

/-- A source operand (R102): register, immediate or memory at an absolute address.
An immediate is held in 64 bits; that it fits in `8*S` bits is `Instr.WellFormed`. -/
inductive Source where
  | reg (r : Reg)
  | imm (v : Word)
  | mem (a : Word)
deriving DecidableEq, Repr

/-- A destination operand (R102, R162), and Operand 1 of CMP (R200): register or memory,
never an immediate. -/
inductive Dest where
  | reg (r : Reg)
  | mem (a : Word)
deriving DecidableEq, Repr

/-- A destination operand read as a source (Operand 1 of CMP, R200). -/
def Dest.asSource : Dest → Source
  | .reg r => .reg r
  | .mem a => .mem a

/-- The instructions (R102, R109), one constructor for each row of spec/opcode_table.json. -/
inductive Instr where
  /-- NOP, R140. -/
  | nop
  /-- UD, R141. -/
  | ud
  /-- HLT, R142. -/
  | hlt
  /-- INT, R143. -/
  | int (o : Source)
  /-- MOV, R163. -/
  | mov (sz : Size) (d : Dest) (o : Source)
  /-- PUSH, R164. -/
  | push (sz : Size) (o : Source)
  /-- POP, R165. -/
  | pop (sz : Size) (d : Dest)
  /-- CPUID, R144. -/
  | cpuid
  /-- CALL, R180. -/
  | call (o : Source)
  /-- RET, R181. -/
  | ret
  /-- JMP, R182. -/
  | jmp (o : Source)
  /-- SYSEXIT, R145. -/
  | sysexit
  /-- CMP, R200. -/
  | cmp (sz : Size) (a : Dest) (o : Source)
  /-- JNE, R183. -/
  | jne (o : Source)
  /-- BRK, the byte 0xCC, R146. -/
  | brk
deriving DecidableEq, Repr

end Sys2Proof
end

