-- ==== Sys2Proof/Config.lean ====
section
/-! DEFINITION. The implementation parameters of spec/00_scope.md R5 as plain data, their defaults, the
reset values the spec leaves to the model, and the one free value. -/

namespace Sys2Proof

/-- BYTE_ORDER (R5, R67): the order of the bytes of a multi-byte value in memory. -/
inductive ByteOrder where
  | little
  | big
deriving DecidableEq, Repr

/-- NARROW_WRITE (R5, R23): what a 1-, 2- or 4-byte register write does to the other bits. -/
inductive NarrowWrite where
  | preserve
  | zero32
  | havoc
deriving DecidableEq, Repr

/-- STACK_DISCIPLINE (R5, R164): the order of store and decrement in PUSH. -/
inductive StackDiscipline where
  | postDecrement
  | preDecrement
deriving DecidableEq, Repr

/-- SMC_POLICY (R5, R80): the fetch of a byte written earlier in the same run. -/
inductive SmcPolicy where
  | refuse
  | coherent
deriving DecidableEq, Repr

/-- A range of byte addresses: `base`, `base + 1`, …, `base + size - 1`. -/
structure Region where
  base : Nat
  size : Nat
deriving DecidableEq, Repr

/-- One entry of CPUID_FN (R144): the register writes for one leaf, PROTECTED value and ID flag. -/
structure CpuidEntry where
  leaf : Word
  protectedMode : Bool
  idFlag : Bool
  writes : List (Reg × Word)
deriving DecidableEq, Repr

/-- The parameters of R5 that a step reads. The machine's configuration, constant during a run. -/
structure Config where
  /-- BYTE_ORDER, R67. -/
  byteOrder : ByteOrder
  /-- NARROW_WRITE, R23. -/
  narrowWrite : NarrowWrite
  /-- STACK_DISCIPLINE, R164. -/
  stackDiscipline : StackDiscipline
  /-- CC_IS_BREAKPOINT, R111, R146. -/
  ccIsBreakpoint : Bool
  /-- SMC_POLICY, R80. -/
  smcPolicy : SmcPolicy
  /-- PROTECTED, R40, R236: read by CPUID_FN only. -/
  protectedMode : Bool
  /-- MEM_PRESENT, R72: the addresses backed by memory. -/
  memPresent : List Region
  /-- RESERVED_MEM, R72: the addresses that are reserved memory. -/
  reservedMem : List Region
  /-- CPUID_FN, R144, as a table: an input with no entry is refused. -/
  cpuid : List CpuidEntry
deriving DecidableEq, Repr

/-- The default of every parameter in R5. MEM_PRESENT and PROTECTED are OPEN in R5: the whole
address space and `false` are the model's (DESIGN CHOICE, log 7 and log 6; unsafe). -/
def Config.default : Config where
  byteOrder := .little
  narrowWrite := .preserve
  stackDiscipline := .postDecrement
  ccIsBreakpoint := true
  smcPolicy := .refuse
  protectedMode := false
  memPresent := [⟨0, 2 ^ 64⟩]
  reservedMem := []
  cpuid := []

/-- RESET_IP of `State.reset` (R261 leaves it OPEN; DESIGN CHOICE, log 3; unsafe). -/
def Config.resetIp : Word := 0

/-- RESET_GPR of `State.reset`, the same for every register (R45 leaves it unspecified; DESIGN CHOICE,
log 4; unsafe). -/
def Config.resetGpr : Word := 0

/-- What a byte of memory that nothing has written reads as (R45 leaves launch memory unspecified;
DESIGN CHOICE, log 8; unsafe for statements about `State.reset` only: every launch memory is a list). -/
def Config.unlistedByte : Byte := 0

/-- The `k`-th free value that NARROW_WRITE = havoc draws (R23: "d any (64-8*S)-bit value"); log 9.
It has no body: nothing can be proved of its value. -/
opaque Config.freeUpper (k : Nat) : Word

end Sys2Proof
end

