-- ==== Sys2Proof/Machine/Bytes.lean ====
section
/-! DEFINITION. Multi-byte values as byte strings (spec/20_memory.md R67, R68), shared by memory and by
the payloads of the reference codec (spec/30_encoding.md R106, R107). -/

namespace Sys2Proof

/-- The unsigned value of a byte string, lowest address first, least significant byte first (R67). -/
def leValue : List Byte → Nat
  | [] => 0
  | b :: bs => b.toNat + 256 * leValue bs

/-- The `n` low bytes of a value, least significant byte first: byte `k` is `v[8*k+7:8*k]` (R68). -/
def leBytes : Nat → Nat → List Byte
  | 0, _ => []
  | n + 1, v => BitVec.ofNat 8 v :: leBytes n (v / 256)

/-- A byte string least significant byte first, put into the order BYTE_ORDER (R67), and back. -/
def orderBytes (bo : ByteOrder) (bs : List Byte) : List Byte :=
  match bo with
  | .little => bs
  | .big => bs.reverse

/-- The value of a byte string in memory order under BYTE_ORDER (R67, R68). -/
def bytesValue (bo : ByteOrder) (bs : List Byte) : Nat := leValue (orderBytes bo bs)

/-- The `n` bytes of a value in memory order under BYTE_ORDER (R67, R68). -/
def valueBytes (bo : ByteOrder) (n v : Nat) : List Byte := orderBytes bo (leBytes n v)

end Sys2Proof
end

