-- ==== Sys2Proof/WellFormed.lean ====
section
/-! DEFINITION. Which terms of `Instr` are instructions of R102: an immediate has exactly `8*S` bits
(spec/30_encoding.md R102, R106). That a destination is no immediate is in the type `Dest`. -/

namespace Sys2Proof

/-- The immediate of a source operand fits in `8*S` bits (R106). -/
def Source.fits (sz : Size) : Source → Bool
  | .reg _ => true
  | .imm v => decide (v.toNat < 2 ^ sz.bits)
  | .mem _ => true

/-- Every immediate of the instruction has the operand size (R102, R106); for INT, CALL, JMP and JNE
the size is 8 (R108). -/
def Instr.wellFormed : Instr → Bool
  | .nop => true
  | .ud => true
  | .hlt => true
  | .int o => o.fits .q
  | .mov sz _ o => o.fits sz
  | .push sz o => o.fits sz
  | .pop _ _ => true
  | .cpuid => true
  | .call o => o.fits .q
  | .ret => true
  | .jmp o => o.fits .q
  | .sysexit => true
  | .cmp sz _ o => o.fits sz
  | .jne o => o.fits .q
  | .brk => true

/-- `Instr.wellFormed` as a proposition. -/
abbrev Instr.WellFormed (i : Instr) : Prop := i.wellFormed = true

end Sys2Proof
end

