-- ==== Sys2Proof/Decode.lean ====
section
/-! DEFINITION. The reference codec RC of spec/30_encoding.md R103 to R113: the opcode map, a decoder
total on any bytes, and after it the encoder. RC is the spec's, not the chip's (log 20). -/

namespace Sys2Proof

/-- The mnemonics of the opcode map (R109). -/
inductive Opcode where
  | nop
  | ud
  | hlt
  | int
  | mov
  | push
  | pop
  | cpuid
  | call
  | ret
  | jmp
  | sysexit
  | cmp
  | jne
  | brk
deriving DecidableEq, Repr

/-- The opcode byte of each mnemonic (R109). -/
def Opcode.byte : Opcode → Byte
  | .nop => 0x00
  | .ud => 0x01
  | .hlt => 0x02
  | .int => 0x03
  | .mov => 0x04
  | .push => 0x05
  | .pop => 0x06
  | .cpuid => 0x07
  | .call => 0x08
  | .ret => 0x09
  | .jmp => 0x0A
  | .sysexit => 0x0B
  | .cmp => 0x0C
  | .jne => 0x0D
  | .brk => 0xCC

/-- The rows of the opcode map (R109). -/
def Opcode.all : List Opcode :=
  [.nop, .ud, .hlt, .int, .mov, .push, .pop, .cpuid, .call, .ret, .jmp, .sysexit, .cmp, .jne, .brk]

/-- The opcode an opcode byte selects; `none` for a reserved opcode (R110). -/
def Opcode.ofByte (b : Byte) : Option Opcode := Opcode.all.find? fun op => op.byte == b

/-- The opcodes a size prefix may precede (R104, R108). -/
def Opcode.takesSizePrefix : Opcode → Bool
  | .mov => true
  | .push => true
  | .pop => true
  | .cmp => true
  | .nop => false
  | .ud => false
  | .hlt => false
  | .int => false
  | .cpuid => false
  | .call => false
  | .ret => false
  | .jmp => false
  | .sysexit => false
  | .jne => false
  | .brk => false

/-- Why bytes are not an instruction. All but `needMore` are Invalid Opcode, code 4 (R110, R112). -/
inductive DecodeError where
  /-- An opcode byte not in the map (R110). -/
  | reservedOpcode (b : Byte)
  /-- A size prefix before an opcode that allows none (R104, R112). -/
  | sizePrefixNotAllowed (op : Opcode)
  /-- A descriptor byte other than 0x00 to 0x0F, 0x10 and 0x20 (R112). -/
  | reservedDescriptor (b : Byte)
  /-- An immediate where a destination or CMP's Operand 1 stands (R108, R112). -/
  | kindNotAccepted
  /-- The bytes end before the instruction does (R113: a byte the decoder needs cannot be fetched). -/
  | needMore
deriving DecidableEq, Repr

/-- What decoding a part of an instruction answers: the part and the bytes after it, or an error. -/
abbrev Parsed (α : Type) := Except DecodeError (α × List Byte)

/-- The size a size-prefix byte sets (R104). -/
def sizeOfPrefix (b : Byte) : Option Size :=
  if b = 0xF1 then some .b else if b = 0xF2 then some .w else if b = 0xF4 then some .d else none

/-- The optional size prefix and the opcode byte (R103, R104, R113). -/
def decodeHead : List Byte → Parsed (Option Size × Byte)
  | [] => .error .needMore
  | b :: bs =>
    match sizeOfPrefix b with
    | none => .ok ((none, b), bs)
    | some sz =>
      match bs with
      | [] => .error .needMore
      | op :: rest => .ok ((some sz, op), rest)

/-- A payload of `n` bytes, as an unsigned value (R106, R107). -/
def decodePayload (bo : ByteOrder) (n : Nat) (bs : List Byte) : Parsed Word :=
  if bs.length < n then .error .needMore
  else .ok (BitVec.ofNat 64 (bytesValue bo (bs.take n)), bs.drop n)

/-- An operand: descriptor byte and payload (R105, R106, R107, R113). -/
def decodeSource (bo : ByteOrder) (sz : Size) : List Byte → Parsed Source
  | [] => .error .needMore
  | b :: bs =>
    if h : b.toNat < 16 then .ok (.reg ⟨b.toNat, h⟩, bs)
    else if b = 0x10 then
      match decodePayload bo sz.bytes bs with
      | .ok (v, rest) => .ok (.imm v, rest)
      | .error e => .error e
    else if b = 0x20 then
      match decodePayload bo 8 bs with
      | .ok (a, rest) => .ok (.mem a, rest)
      | .error e => .error e
    else .error (.reservedDescriptor b)

/-- An operand where only Reg and Mem are accepted (R108): an immediate is rejected after it has been
read (R113). -/
def decodeDest (bo : ByteOrder) (sz : Size) (bs : List Byte) : Parsed Dest :=
  match decodeSource bo sz bs with
  | .ok (.reg r, rest) => .ok (.reg r, rest)
  | .ok (.mem a, rest) => .ok (.mem a, rest)
  | .ok (.imm _, _) => .error .kindNotAccepted
  | .error e => .error e

/-- An instruction with one source operand (format F1, R108). -/
def decodeF1 (bo : ByteOrder) (sz : Size) (mk : Source → Instr) (bs : List Byte) : Parsed Instr :=
  match decodeSource bo sz bs with
  | .ok (o, rest) => .ok (mk o, rest)
  | .error e => .error e

/-- An instruction with one destination operand (format F1, POP, R108). -/
def decodeF1Dest (bo : ByteOrder) (sz : Size) (mk : Dest → Instr) (bs : List Byte) : Parsed Instr :=
  match decodeDest bo sz bs with
  | .ok (d, rest) => .ok (mk d, rest)
  | .error e => .error e

/-- An instruction with two operands, Operand 1 first (format F2, R108). -/
def decodeF2 (bo : ByteOrder) (sz : Size) (mk : Dest → Source → Instr) (bs : List Byte) :
    Parsed Instr :=
  match decodeDest bo sz bs with
  | .ok (d, rest) => decodeF1 bo sz (mk d) rest
  | .error e => .error e

/-- The operands of an opcode, by its format (R108). -/
def decodeOperands (bo : ByteOrder) (sz : Size) (op : Opcode) (bs : List Byte) : Parsed Instr :=
  match op with
  | .nop => .ok (.nop, bs)
  | .ud => .ok (.ud, bs)
  | .hlt => .ok (.hlt, bs)
  | .int => decodeF1 bo sz .int bs
  | .mov => decodeF2 bo sz (.mov sz) bs
  | .push => decodeF1 bo sz (.push sz) bs
  | .pop => decodeF1Dest bo sz (.pop sz) bs
  | .cpuid => .ok (.cpuid, bs)
  | .call => decodeF1 bo sz .call bs
  | .ret => .ok (.ret, bs)
  | .jmp => decodeF1 bo sz .jmp bs
  | .sysexit => .ok (.sysexit, bs)
  | .cmp => decodeF2 bo sz (.cmp sz) bs
  | .jne => decodeF1 bo sz .jne bs
  | .brk => .ok (.brk, bs)

/-- `Decode` of R113 on a byte string: the instruction and the bytes after it, or the error at the
first byte that gives one. -/
def decodeRest (bo : ByteOrder) (bs : List Byte) : Parsed Instr :=
  match decodeHead bs with
  | .error e => .error e
  | .ok ((sizePrefix, b), rest) =>
    match Opcode.ofByte b with
    | none => .error (.reservedOpcode b)
    | some op =>
      if sizePrefix.isSome && !op.takesSizePrefix then .error (.sizePrefixNotAllowed op)
      else decodeOperands bo (sizePrefix.getD .q) op rest

/-- `Decode` of R113: the instruction and its length `L` in bytes. -/
def decode (bo : ByteOrder) (bs : List Byte) : Except DecodeError (Instr × Nat) :=
  match decodeRest bo bs with
  | .ok (i, rest) => .ok (i, bs.length - rest.length)
  | .error e => .error e

/-- The mnemonic of an instruction (R109). -/
def Instr.opcode : Instr → Opcode
  | .nop => .nop
  | .ud => .ud
  | .hlt => .hlt
  | .int _ => .int
  | .mov _ _ _ => .mov
  | .push _ _ => .push
  | .pop _ _ => .pop
  | .cpuid => .cpuid
  | .call _ => .call
  | .ret => .ret
  | .jmp _ => .jmp
  | .sysexit => .sysexit
  | .cmp _ _ _ => .cmp
  | .jne _ => .jne
  | .brk => .brk

/-- The longest instruction, 20 bytes (R113). -/
def maxInstrLength : Nat := 20

/-- The bytes of an instruction word as spec/opcode_table.json numbers its bits: bits 7..0 are the
first byte, and every bit from `nbits` on is 0. -/
def tableWordBytes (nbits w : Nat) : List Byte := leBytes maxInstrLength (w % 2 ^ nbits)

/-- The instruction the decoder reads from an instruction whose bits are `w`, under the default byte
order. -/
def decodeTableWord (nbits w : Nat) : Option Instr :=
  match decode .little (tableWordBytes nbits w) with
  | .ok (i, _) => some i
  | .error _ => none

/-- The size prefix of an operand size: none for 8 bytes (R104). -/
def encodeSize : Size → List Byte
  | .b => [0xF1]
  | .w => [0xF2]
  | .d => [0xF4]
  | .q => []

/-- An operand's descriptor byte and payload (R105, R106, R107). -/
def encodeSource (bo : ByteOrder) (sz : Size) : Source → List Byte
  | .reg r => [BitVec.ofNat 8 r.val]
  | .imm v => 0x10 :: valueBytes bo sz.bytes v.toNat
  | .mem a => 0x20 :: valueBytes bo 8 a.toNat

/-- The bytes an operand takes: 1 (Reg), `1 + S` (Imm) or 9 (Mem) (R113). -/
def Source.length (sz : Size) : Source → Nat
  | .reg _ => 1
  | .imm _ => 1 + sz.bytes
  | .mem _ => 9

/-- The bytes a size prefix takes (R104, R113). -/
def Size.prefixLength : Size → Nat
  | .b => 1
  | .w => 1
  | .d => 1
  | .q => 0

/-- The length of an instruction in bytes, as R113 counts it: 1 for the opcode, and the prefix and the
operands it has. -/
def Instr.length : Instr → Nat
  | .nop => 1
  | .ud => 1
  | .hlt => 1
  | .int o => 1 + o.length .q
  | .mov sz d o => sz.prefixLength + 1 + d.asSource.length sz + o.length sz
  | .push sz o => sz.prefixLength + 1 + o.length sz
  | .pop sz d => sz.prefixLength + 1 + d.asSource.length sz
  | .cpuid => 1
  | .call o => 1 + o.length .q
  | .ret => 1
  | .jmp o => 1 + o.length .q
  | .sysexit => 1
  | .cmp sz a o => sz.prefixLength + 1 + a.asSource.length sz + o.length sz
  | .jne o => 1 + o.length .q
  | .brk => 1

/-- The bytes of an instruction in RC (R103, R108, R109). -/
def encode (bo : ByteOrder) : Instr → List Byte
  | .nop => [Opcode.nop.byte]
  | .ud => [Opcode.ud.byte]
  | .hlt => [Opcode.hlt.byte]
  | .int o => Opcode.int.byte :: encodeSource bo .q o
  | .mov sz d o =>
    encodeSize sz ++ Opcode.mov.byte :: (encodeSource bo sz d.asSource ++ encodeSource bo sz o)
  | .push sz o => encodeSize sz ++ Opcode.push.byte :: encodeSource bo sz o
  | .pop sz d => encodeSize sz ++ Opcode.pop.byte :: encodeSource bo sz d.asSource
  | .cpuid => [Opcode.cpuid.byte]
  | .call o => Opcode.call.byte :: encodeSource bo .q o
  | .ret => [Opcode.ret.byte]
  | .jmp o => Opcode.jmp.byte :: encodeSource bo .q o
  | .sysexit => [Opcode.sysexit.byte]
  | .cmp sz a o =>
    encodeSize sz ++ Opcode.cmp.byte :: (encodeSource bo sz a.asSource ++ encodeSource bo sz o)
  | .jne o => Opcode.jne.byte :: encodeSource bo .q o
  | .brk => [Opcode.brk.byte]

end Sys2Proof
end

