-- ==== Sys2Proof/Machine/State.lean ====
section
/-! DEFINITION. The state of the machine (spec/10_state.md, spec/20_memory.md R60, R61), its reset
(R45, R260), and the reasons a step can stop. Every field is plain data. -/

namespace Sys2Proof.Machine

/-- The defined bits of EFLAGS (R30), each one bit, named as the source names them. -/
structure Eflags where
  /-- Carry Flag, bit 0 (R31). -/
  CF : Bool
  /-- Zero Flag, bit 1 (R32). -/
  ZF : Bool
  /-- Sign Flag, bit 2 (R33). -/
  SF : Bool
  /-- Trap Flag, bit 3 (R34). -/
  TF : Bool
  /-- Interrupt Enable Flag, bit 4 (R35). -/
  IF : Bool
  /-- Overflow Flag, bit 5 (R36). -/
  OF : Bool
  /-- ID Flag, bit 6 (R37). -/
  ID : Bool
  /-- Resume Flag, bit 7 (R38): carried, read by no rule (log 22). -/
  RF : Bool
deriving DecidableEq, Repr

/-- The segment registers (R29), 64 bits each. -/
structure Segments where
  /-- Points to the code segment. -/
  CS : Word
  /-- Points to the data segment. -/
  DS : Word
  /-- Points to the stack segment. -/
  SS : Word
deriving DecidableEq, Repr

/-- The addressing mode (R40). -/
inductive AddressMode where
  | direct
  | virtual
deriving DecidableEq, Repr

/-- The memory model (R40). -/
inductive MemoryModel where
  | flat
  | segmented
deriving DecidableEq, Repr

/-- The outcome `Trap(code, at, next)` of R10: `origin` is its `at`, the address of the first byte of
the instruction that was executing or about to execute (R226). -/
structure TrapRecord where
  code : Code
  origin : Word
  next : Word
deriving DecidableEq, Repr

/-- The run state (R41), with the terminal outcome of a raised code beside it (R10, R231; log 1). -/
inductive RunState where
  | running
  | halted
  | shutdown
  | trapped (t : TrapRecord)
deriving DecidableEq, Repr

/-- Memory: address and byte, addresses strictly rising, no byte equal to `Config.unlistedByte`. -/
abbrev Memory := List Host.Cell

/-- The state of the machine. The last five fields are the model's own: the configuration of R5 and
the bookkeeping INVENTORY.md names. -/
structure State where
  /-- The sixteen general registers (R20). -/
  x : Vector Word 16
  /-- The instruction pointer (R26). -/
  pc : Word
  /-- CS, DS, SS (R29). -/
  seg : Segments
  /-- EFLAGS (R30). -/
  flags : Eflags
  /-- The addressing mode (R40). -/
  amode : AddressMode
  /-- The memory model (R40). -/
  mmodel : MemoryModel
  /-- The run state (R41). -/
  run : RunState
  /-- Memory (R60, R61). -/
  mem : Memory
  /-- The parameters of R5, constant (log 2). -/
  cfg : Config
  /-- `at` of R11 step 2: the first byte of the instruction being executed (log 17). -/
  instrAt : Word
  /-- The addresses a MemWrite of this run has written, strictly rising (R80; log 13). -/
  written : List Nat
  /-- What the environment presents at the boundaries to come (R228, R229; log 10): nothing, or the
  maskable code `32 + n`. An empty list presents nothing. -/
  inputs : List (Option (Fin 224))
  /-- How many free values have been drawn (R23, havoc; log 9). -/
  draws : Nat
deriving DecidableEq, Repr

/-- The machine stops because an access leaves the memory there is: the spec's `refuse` of a memory
access, which is no behaviour of the chip (R10; log 12). All are safe: the model says less than the
chip does. -/
inductive Fault where
  /-- `refuse(access_wraps)`: a data or stack access crosses the top of the address space (R68, R82).
  Raised by any instruction that accesses memory. Safe. -/
  | accessWraps
  /-- `refuse(fetch_wraps)`: an instruction byte is needed at or above 2^64 (R28, R113). Raised by the
  fetch. Safe. -/
  | fetchWraps
  /-- `refuse(no_memory)`: an access touches an address outside MEM_PRESENT and no reserved address
  (R68, R72). Raised by the fetch and by any instruction that accesses memory. Safe. -/
  | noMemory
deriving DecidableEq, Repr

/-- The spec gives the situation no meaning (R10, `refuse`); the run must not go on. All are safe. -/
inductive Refusal where
  /-- No meaning for the instruction yet; raised only by an arm of `exec`. Safe. -/
  | notModelled (mnemonic : String)
  /-- `refuse(mode_not_modelled)`: an access in Virtual Address Mode or the Segmented Memory Model
  (R68, R74, R75). Raised by the fetch and by any memory access. Safe. -/
  | modeNotModelled
  /-- `refuse(self_modifying_code)`: the fetch of a byte written earlier in the run, under
  SMC_POLICY = refuse (R80). Raised by the fetch. Safe. -/
  | selfModifyingCode
  /-- `refuse(int_code_out_of_range)`: INT with an operand above 255 (R143). Safe. -/
  | intCodeOutOfRange
  /-- `refuse(int_code_reserved)`: INT with a code 13 to 31 (R143, R224). Safe. -/
  | intCodeReserved
  /-- `refuse(cpuid_not_specified)`: CPUID with an input that CPUID_FN has no entry for (R144). Safe. -/
  | cpuidNotSpecified
deriving DecidableEq, Repr

/-- What a launch of the machine fixes (R45, R260, R261, R267): the parameters RESET_IP, RESET_GPR,
RESET_EFLAGS, the configuration, the program and data in memory, and the environment's schedule. -/
structure Launch where
  cfg : Config
  resetIp : Word
  resetGpr : Vector Word 16
  resetFlags : Eflags
  mem : Memory
  inputs : List (Option (Fin 224))
deriving DecidableEq, Repr

/-- The state after reset, for every launch (R45): Direct, Flat, segment registers 0, Running, and the
launch's values for all the spec leaves unspecified. No byte has been written yet. -/
def State.ofLaunch (l : Launch) : State where
  x := l.resetGpr
  pc := l.resetIp
  seg := ⟨0, 0, 0⟩
  flags := l.resetFlags
  amode := .direct
  mmodel := .flat
  run := .running
  mem := l.mem
  cfg := l.cfg
  instrAt := l.resetIp
  written := []
  inputs := l.inputs
  draws := 0

/-- RESET_EFLAGS of `State.reset`: all flags 0 (R45 leaves them unspecified; DESIGN CHOICE, log 5;
unsafe). -/
def Launch.clearFlags : Eflags := ⟨false, false, false, false, false, false, false, false⟩

/-- The launch of `State.reset`: the defaults of R5 and the values of log 3 to 10. -/
def Launch.default : Launch where
  cfg := Config.default
  resetIp := Config.resetIp
  resetGpr := Vector.replicate 16 Config.resetGpr
  resetFlags := Launch.clearFlags
  mem := []
  inputs := []

/-- The machine right after reset (R45, R260). -/
def State.reset : State := State.ofLaunch Launch.default

end Sys2Proof.Machine
end

