-- ==== Sys2Proof/Machine/Codes.lean ====
section
/-! DEFINITION. The table of interrupt and exception codes (spec/60_exceptions.md R210 to R225). -/

namespace Sys2Proof.Machine

/-- The descriptions of the code table (R210). -/
inductive CodeKind where
  | divideError
  | debug
  | breakpoint
  | overflow
  | invalidOpcode
  | doubleFault
  | segmentNotPresent
  | stackSegmentFault
  | pageFault
  | mathFault
  | machineCheck
  | protectionException
  | singleStepInterrupt
  | reserved
  | maskable
deriving DecidableEq, Repr

/-- The row of the table a code stands in (R210): 13 to 31 Reserved, 32 to 255 Maskable Interrupts. -/
def codeKind (c : Code) : CodeKind :=
  match c.toNat with
  | 0 => .divideError
  | 1 => .debug
  | 2 => .breakpoint
  | 3 => .overflow
  | 4 => .invalidOpcode
  | 5 => .doubleFault
  | 6 => .segmentNotPresent
  | 7 => .stackSegmentFault
  | 8 => .pageFault
  | 9 => .mathFault
  | 10 => .machineCheck
  | 11 => .protectionException
  | 12 => .singleStepInterrupt
  | n => if n < 32 then .reserved else .maskable

/-- Breakpoint (R213). -/
abbrev Code.breakpoint : Code := 2

/-- Invalid Opcode (R215). -/
abbrev Code.invalidOpcode : Code := 4

/-- Protection Exception (R222). -/
abbrev Code.protection : Code := 11

/-- Single Step Interrupt (R223). -/
abbrev Code.singleStep : Code := 12

/-- The code of the `n`-th maskable interrupt, 32 to 255 (R225, R228). -/
def externalCode (n : Fin 224) : Code := BitVec.ofNat 8 (32 + n.val)

end Sys2Proof.Machine
end

