-- ==== Sys2Proof/Machine/Memory.lean ====
section
/-! DEFINITION. Memory as a canonical list of address and byte pairs (spec/20_memory.md R61, R68), and
rising lists of addresses. -/

namespace Sys2Proof.Machine

/-- The byte at an address (R61); an unlisted address reads as `Config.unlistedByte`. -/
def Memory.read : Memory → Nat → Byte
  | [], _ => Config.unlistedByte
  | (b, v) :: m, a => if a = b then v else Memory.read m a

/-- Puts a byte in front of the cells above its address, unless it is the unlisted byte. -/
def Memory.cons (a : Nat) (v : Byte) (m : Memory) : Memory :=
  if v = Config.unlistedByte then m else (a, v) :: m

/-- Store of one byte, keeping the canonical form (R68). -/
def Memory.write : Memory → Nat → Byte → Memory
  | [], a, v => Memory.cons a v []
  | (b, w) :: m, a, v =>
    if a < b then Memory.cons a v ((b, w) :: m)
    else if a = b then Memory.cons a v m
    else (b, w) :: Memory.write m a v

/-- The `n` bytes from address `a` up (R68). -/
def Memory.readBytes (m : Memory) : Nat → Nat → List Byte
  | _, 0 => []
  | a, n + 1 => m.read a :: Memory.readBytes m (a + 1) n

/-- Store of bytes from address `a` up (R68). -/
def Memory.writeBytes (m : Memory) (a : Nat) : List Byte → Memory
  | [] => m
  | b :: bs => Memory.writeBytes (m.write a b) (a + 1) bs

/-- Every listed address is above `lo`, addresses rise strictly, and no listed byte is the unlisted
byte: the canonical form above `lo`. -/
def Memory.wfAbove (lo : Nat) : Memory → Bool
  | [] => true
  | (a, v) :: m => decide (lo ≤ a) && decide (v ≠ Config.unlistedByte) && Memory.wfAbove (a + 1) m

/-- The canonical form: addresses strictly rising, no entry equal to what an unlisted address reads
as. -/
def Memory.wf (m : Memory) : Bool := Memory.wfAbove 0 m

/-- Every listed address is in the 64-bit address space (R60). -/
def Memory.inSpace (m : Memory) : Bool := m.all fun c => decide (c.1 < 2 ^ 64)

/-- A set of addresses as a strictly rising list: adding one. -/
def addrInsert (a : Nat) : List Nat → List Nat
  | [] => [a]
  | b :: l => if a < b then a :: b :: l else if a = b then b :: l else b :: addrInsert a l

/-- Adding the `n` addresses from `a` up. -/
def addrInsertRange (a : Nat) : Nat → List Nat → List Nat
  | 0, l => l
  | n + 1, l => addrInsertRange (a + 1) n (addrInsert a l)

/-- The list rises strictly and starts at or above `lo`. -/
def addrRisingAbove (lo : Nat) : List Nat → Bool
  | [] => true
  | a :: l => decide (lo ≤ a) && addrRisingAbove (a + 1) l

/-- The list rises strictly. -/
def addrRising (l : List Nat) : Bool := addrRisingAbove 0 l

end Sys2Proof.Machine
end

