-- ==== Sys2Proof/Machine/Ops.lean ====
section
/-! DEFINITION. The operations every meaning is made of: state updates, register views (spec/10_state.md
R20 to R23), the memory primitives (spec/20_memory.md R68), and taking a trap (spec/60_exceptions.md
R231, R232). There is no return from a trap (R233), so no operation for one. -/

namespace Sys2Proof.Machine

/-- How an instruction rule ends without completing: `raise` of a code (R231), or the spec's `refuse`
(R10), split into `Fault` and `Refusal` (log 12). -/
inductive Stop where
  | raise (c : Code)
  | fault (f : Fault)
  | refuse (r : Refusal)
deriving DecidableEq, Repr

/-- What a part of an instruction rule answers. -/
abbrev Res (α : Type) := Except Stop α

/-! ## State updates -/

/-- `x[r] <- v` (R20). -/
def State.setReg (s : State) (r : Reg) (v : Word) : State := { s with x := s.x.set r.val v r.isLt }

/-- `pc <- target` (R27). -/
def State.setPc (s : State) (target : Word) : State := { s with pc := target }

/-- Write of EFLAGS (R39: CMP only). -/
def State.setFlags (s : State) (f : Eflags) : State := { s with flags := f }

/-- Change of the run state (R41). -/
def State.setRun (s : State) (r : RunState) : State := { s with run := r }

/-- The bytes stored at `a` up, and the record that this run has written them (R68, R80). -/
def State.storeBytes (s : State) (a : Word) (bs : List Byte) : State :=
  { s with
    mem := s.mem.writeBytes a.toNat bs
    written := addrInsertRange a.toNat bs.length s.written }

/-- One more free value has been drawn (R23, havoc). -/
def State.countDraw (s : State) : State := { s with draws := s.draws + 1 }

/-- The presentation of this boundary has passed (R42, R229: nothing stays pending). -/
def State.passBoundary (s : State) : State := { s with inputs := s.inputs.tail }

/-- `at <- pc` (R11 step 2). -/
def State.beginInstr (s : State) : State := { s with instrAt := s.pc }

/-- `pc <- at + L`, modulo 2^64 (R11 step 4, R27, R28). -/
def State.advance (s : State) (len : Nat) : State := { s with pc := s.pc + BitVec.ofNat 64 len }

/-! ## Register views -/

/-- `x[r]` (R20). -/
def State.reg (s : State) (r : Reg) : Word := s.x[r]

/-- `R(r, S)` (R22): bits `8*S-1:0` of register `r`. -/
def State.readView (s : State) (sz : Size) (r : Reg) : BitVec sz.bits := (s.reg r).setWidth sz.bits

/-- `upper[63:8*S] ++ v` (R23). -/
def mergeLow (sz : Size) (upper : Word) (v : BitVec sz.bits) : Word :=
  ((upper >>> sz.bits) <<< sz.bits) ||| v.setWidth 64

/-- `W(r, S, v)` (R23), under NARROW_WRITE. Under havoc the upper bits are a free value (log 9). -/
def State.writeView (s : State) (sz : Size) (r : Reg) (v : BitVec sz.bits) : State :=
  if sz = .q then s.setReg r (v.setWidth 64)
  else
    match s.cfg.narrowWrite with
    | .preserve => s.setReg r (mergeLow sz (s.reg r) v)
    | .zero32 => if sz = .d then s.setReg r (v.setWidth 64) else s.setReg r (mergeLow sz (s.reg r) v)
    | .havoc => (s.setReg r (mergeLow sz (Config.freeUpper s.draws) v)).countDraw

/-! ## Memory -/

/-- The address lies in a range. -/
def inRegion (a : Nat) (g : Region) : Bool := decide (g.base ≤ a) && decide (a < g.base + g.size)

/-- The address is in RESERVED_MEM (R72). -/
def State.isReserved (s : State) (a : Nat) : Bool := s.cfg.reservedMem.any (inRegion a)

/-- The address is in MEM_PRESENT (R72). -/
def State.isPresent (s : State) (a : Nat) : Bool := s.cfg.memPresent.any (inRegion a)

/-- Every one of the `n` addresses from `a` up satisfies `p`. -/
def allFrom (p : Nat → Bool) (a : Nat) : Nat → Bool
  | 0 => true
  | n + 1 => p a && allFrom p (a + 1) n

/-- `check(addr, n)` (R68), its four tests in the rule's order. -/
def State.check (s : State) (a : Word) (n : Nat) : Res Unit :=
  if a.toNat + n > 2 ^ 64 then .error (.fault .accessWraps)
  else if s.amode ≠ .direct ∨ s.mmodel ≠ .flat then .error (.refuse .modeNotModelled)
  else if allFrom (fun k => !s.isReserved k) a.toNat n = false then .error (.raise Code.protection)
  else if allFrom s.isPresent a.toNat n = false then .error (.fault .noMemory)
  else .ok ()

/-- The byte of memory at an address, as a reader of the state sees it (R61). -/
def State.byteAt (s : State) (a : Nat) : Byte := s.mem.read a

/-- `MemRead(addr, S)` (R68) under BYTE_ORDER (R67). -/
def State.memRead (s : State) (sz : Size) (a : Word) : Res (BitVec sz.bits) :=
  match s.check a sz.bytes with
  | .ok _ =>
    .ok (BitVec.ofNat sz.bits (bytesValue s.cfg.byteOrder (s.mem.readBytes a.toNat sz.bytes)))
  | .error e => .error e

/-- `MemWrite(addr, S, v)` (R68) under BYTE_ORDER (R67). -/
def State.memWrite (s : State) (sz : Size) (a : Word) (v : BitVec sz.bits) : Res State :=
  match s.check a sz.bytes with
  | .ok _ => .ok (s.storeBytes a (valueBytes s.cfg.byteOrder sz.bytes v.toNat))
  | .error e => .error e

/-! ## Taking a trap -/

/-- The exception or interrupt `c` is taken in `s`: the outcome `Trap(c, origin, next)` of R10, with
`pc = next` and nothing else changed (R231, R232). The step hands it to TRAP_HANDLER
(Machine/Platform.lean; log 1). -/
def takeTrap (s : State) (c : Code) (origin next : Word) : Host.Outcome State Fault Refusal :=
  .next ((s.setPc next).setRun (.trapped ⟨c, origin, next⟩))

/-- The outcome of an instruction rule that started in `s`: its next state, or, with every effect
discarded (R232), the trap it raised (`Trap(c, at, pc)`) or its stop. -/
def complete (s : State) : Res State → Host.Outcome State Fault Refusal
  | .ok t => .next t
  | .error (.raise c) => takeTrap s c s.instrAt s.pc
  | .error (.fault f) => .fault f
  | .error (.refuse r) => .refused r

end Sys2Proof.Machine
end

