-- ==== Sys2Proof/Machine/Platform.lean ====
section
/-! DEFINITION. The two parameters of spec/00_scope.md R5 that are functions: CODEC (spec/30_encoding.md
R101) and TRAP_HANDLER (spec/60_exceptions.md R231). The state being plain data, they are arguments of the
step (log 28). -/

namespace Sys2Proof.Machine

/-- CODEC (R101): a function from memory, given by what each address fetches, and an address. BYTE_ORDER
(R67) is an argument, the codec being free to follow it. -/
structure Codec where
  /-- The opcode byte of the instruction at an address, or what stops its fetch. -/
  opcodeByte : ByteOrder → (Nat → Res Byte) → Nat → Res Byte
  /-- The instruction at an address with its length in bytes, a decode fault, or what stops a fetch. -/
  decode : ByteOrder → (Nat → Res Byte) → Nat → Res (Instr × Nat)

/-- The contract of R101, for RC and any replacement. Its clause (b), determinism, is being a function. -/
structure Codec.Lawful (c : Codec) : Prop where
  /-- (a): only bytes at and after the address are read. -/
  reads : ∀ bo f g k, (∀ j, k ≤ j → f j = g j) →
    c.opcodeByte bo f k = c.opcodeByte bo g k ∧ c.decode bo f k = c.decode bo g k
  /-- An instruction is one of R102, and (c) its mnemonic is the one R109 gives for its opcode byte. -/
  mnemonic : ∀ bo f k i n, c.decode bo f k = .ok (i, n) →
    i.WellFormed ∧ c.opcodeByte bo f k = .ok i.opcode.byte
  /-- (d): an opcode byte that is not listed is Invalid Opcode. -/
  reserved : ∀ bo f k b, c.opcodeByte bo f k = .ok b → Opcode.ofByte b = none →
    c.decode bo f k = .error (.raise Code.invalidOpcode)
  /-- What is no instruction is a decode fault, or a fetch that stops (R113). -/
  stops : ∀ bo f k e, c.decode bo f k = .error e →
    e = .raise Code.invalidOpcode ∨ ∃ j, k ≤ j ∧ f j = .error e

/-- TRAP_HANDLER (R231): from the state with `pc = next` and nothing else changed, the code, `at` and
`next` to an outcome. -/
abbrev TrapHandler := State → Code → Word → Word → Host.Outcome State Fault Refusal

/-- The default TRAP_HANDLER (R231): the run ends in `Trap(code, at, next)`. -/
def terminalHandler : TrapHandler := fun s c origin next =>
  .next (s.setRun (.trapped ⟨c, origin, next⟩))

/-- The outcome of a step once TRAP_HANDLER has had its trap, if it is one (R231). The handler's state is
running: a taken interrupt ends a halt (R228). -/
def deliver (h : TrapHandler) :
    Host.Outcome State Fault Refusal → Host.Outcome State Fault Refusal
  | .next t =>
    match t.run with
    | .running => .next t
    | .halted => .next t
    | .shutdown => .next t
    | .trapped r => h (t.setRun .running) r.code r.origin r.next
  | .fault f => .fault f
  | .refused r => .refused r

/-- The function parameters of R5. -/
structure Platform where
  /-- CODEC, R101. -/
  codec : Codec
  /-- TRAP_HANDLER, R231. -/
  trapHandler : TrapHandler

end Sys2Proof.Machine
end

