-- ==== Sys2Proof/Machine/Fetch.lean ====
section
/-! DEFINITION. Instruction fetch and decode from memory (spec/30_encoding.md R113; spec/20_memory.md
R80), and the placing of a program's bytes by the environment (spec/70_reset_and_hazards.md R266). -/

namespace Sys2Proof.Machine

/-- `Fetch(k)` of R113 for an address that is not reduced modulo 2^64: the check of R68, then SMC_POLICY
(R80). -/
def State.fetchByte (s : State) (k : Nat) : Res Byte :=
  if 2 ^ 64 ≤ k then .error (.fault .fetchWraps)
  else
    match s.check (BitVec.ofNat 64 k) 1 with
    | .error e => .error e
    | .ok _ =>
      if s.cfg.smcPolicy = .refuse ∧ s.written.contains k = true then
        .error (.refuse .selfModifyingCode)
      else .ok (s.byteAt k)

/-- The bytes that can be fetched from `k` up, at most `n`, and what stops the fetch of the next one
(log 14). -/
def fetchWindow (fetch : Nat → Res Byte) (k : Nat) : Nat → List Byte × Option Stop
  | 0 => ([], none)
  | n + 1 =>
    match fetch k with
    | .error e => ([], some e)
    | .ok b =>
      match fetchWindow fetch (k + 1) n with
      | (bs, e) => (b :: bs, e)

/-- `Decode(at)` of R113: the instruction and its length, a decode fault (Invalid Opcode, R110, R112), or
what stops the fetch of the first byte that the decoder needs and cannot have. -/
def decodeFrom (bo : ByteOrder) (fetch : Nat → Res Byte) (k : Nat) : Res (Instr × Nat) :=
  match decode bo (fetchWindow fetch k maxInstrLength).1 with
  | .ok (i, len) => .ok (i, len)
  | .error .needMore =>
    .error ((fetchWindow fetch k maxInstrLength).2.getD (.raise Code.invalidOpcode))
  | .error (.reservedOpcode _) => .error (.raise Code.invalidOpcode)
  | .error (.sizePrefixNotAllowed _) => .error (.raise Code.invalidOpcode)
  | .error (.reservedDescriptor _) => .error (.raise Code.invalidOpcode)
  | .error .kindNotAccepted => .error (.raise Code.invalidOpcode)

/-- The opcode byte in RC: the first byte, or the one after a size prefix (R103, R104). -/
def opcodeByteFrom (fetch : Nat → Res Byte) (k : Nat) : Res Byte :=
  match fetch k with
  | .error e => .error e
  | .ok b =>
    match sizeOfPrefix b with
    | none => .ok b
    | some _ => fetch (k + 1)

/-- The reference codec RC, the default of CODEC (R5, R101). -/
def referenceCodec : Codec where
  opcodeByte _ := opcodeByteFrom
  decode := decodeFrom

/-- What a codec reads at `pc`. -/
def State.decodeWith (s : State) (c : Codec) : Res (Instr × Nat) :=
  c.decode s.cfg.byteOrder s.fetchByte s.pc.toNat

/-- What RC reads at `pc`. -/
abbrev State.fetchDecode (s : State) : Res (Instr × Nat) := s.decodeWith referenceCodec

/-- The address is one of the `n` from `a` up. -/
def inSpan (a n k : Nat) : Bool := decide (a ≤ k) && decide (k < a + n)

/-- The environment places bytes at `a` up before a run (R266): they are launch contents, not bytes the
run has written (R80). Bytes that would lie at or above 2^64 are not placed. -/
def State.placeBytes (s : State) (a : Word) (bs : List Byte) : State :=
  { s with
    mem := s.mem.writeBytes a.toNat (bs.take (2 ^ 64 - a.toNat))
    written := s.written.filter fun k => !inSpan a.toNat bs.length k }

end Sys2Proof.Machine
end

