-- ==== Sys2Proof/Machine/Cycle.lean ====
section
/-! DEFINITION. The step cycle (spec/00_scope.md R11): the interrupt check at a boundary, fetch and
decode, execution, the single-step check, TRAP_HANDLER. The platform and the meaning of an instruction are
arguments here. -/

namespace Sys2Proof.Machine

/-- The external interrupt the environment presents at this boundary, if any (R228, R229). -/
def State.presented (s : State) : Option (Fin 224) :=
  match s.inputs with
  | some n :: _ => some n
  | _ => none

/-- The code of the external interrupt taken at this boundary: the presented one if IF = 1 (R228). -/
def State.accepted (s : State) : Option Code :=
  if s.flags.IF then s.presented.map externalCode else none

/-- A boundary (R11 step 1, R228): an accepted external interrupt is `Trap(n, pc, pc)`; otherwise the
presentation leaves no trace and the step goes on. -/
def atBoundary (s : State) (go : State → Host.Outcome State Fault Refusal) :
    Host.Outcome State Fault Refusal :=
  match s.accepted with
  | some c => takeTrap s.passBoundary c s.pc s.pc
  | none => go s.passBoundary

/-- The single-step check (R11 step 6, R223): after an instruction that completed and left the CPU
running, TF = 1 gives `Trap(12, at, pc)`. -/
def singleStep : Host.Outcome State Fault Refusal → Host.Outcome State Fault Refusal
  | .next s =>
    if s.run = .running ∧ s.flags.TF = true then takeTrap s Code.singleStep s.instrAt s.pc
    else .next s
  | .fault f => .fault f
  | .refused r => .refused r

/-- Steps 2 to 6 of R11. A decode or fetch fault is `Trap(c, at, at)`: `pc` has not advanced (R110,
R232). -/
def runInstr (c : Codec) (meaning : Instr → State → Host.Outcome State Fault Refusal) (s : State) :
    Host.Outcome State Fault Refusal :=
  match s.beginInstr.decodeWith c with
  | .ok (i, len) => singleStep (meaning i (s.beginInstr.advance len))
  | .error e => complete s.beginInstr (.error e)

/-- One step of the CPU by its run state (R11, R41), a trap going to TRAP_HANDLER (R231): nothing happens
in Shutdown and after a terminal trap; only a boundary passes while Halted (R142; log 11). -/
def cycle (p : Platform) (meaning : Instr → State → Host.Outcome State Fault Refusal) (s : State) :
    Host.Outcome State Fault Refusal :=
  match s.run with
  | .running => deliver p.trapHandler (atBoundary s (runInstr p.codec meaning))
  | .halted => deliver p.trapHandler (atBoundary s .next)
  | .shutdown => .next s
  | .trapped _ => .next s

end Sys2Proof.Machine
end

