-- ==== Sys2Proof/Machine/DataTypes.lean ====
section
/-! DEFINITION. The data types of spec/20_memory.md R63 to R66 and the address split of R74, as views of
bit vectors. CMP alone computes on integers (R63); no instruction reads a value as a float or a string
(R64, R66), and the segment split is used by no access of the Flat Memory Model (R74). -/

namespace Sys2Proof.Machine

/-- `u(v)`: the unsigned integer a bit vector stands for (R7, R63). -/
abbrev unsignedValue {n : Nat} (v : BitVec n) : Nat := v.toNat

/-- `s(v)`: the two's complement integer a bit vector stands for (R7, R63): `u(v) - 2^N * v[N-1]`. -/
def signedValue {n : Nat} (v : BitVec n) : Int :=
  if v.msb then (v.toNat : Int) - 2 ^ n else v.toNat

/-- The fields of a floating-point format (R64), positions only. -/
structure FloatFields (e m : Nat) where
  sign : Bool
  exponent : BitVec e
  value : BitVec m
deriving DecidableEq, Repr

/-- Single Precision (R64): sign bit 31, exponent bits 30-23, value bits 22-0. -/
def singleFields (v : BitVec 32) : FloatFields 8 23 :=
  ⟨v.getLsbD 31, v.extractLsb' 23 8, v.extractLsb' 0 23⟩

/-- Double Precision (R64): sign bit 63, exponent bits 62-52, value bits 51-0. -/
def doubleFields (v : BitVec 64) : FloatFields 11 52 :=
  ⟨v.getLsbD 63, v.extractLsb' 52 11, v.extractLsb' 0 52⟩

/-- The segment selector of a far pointer (R65), and the segment of an address in the Segmented Memory
Model (R74): bits 63:48. -/
def segmentOf (a : Word) : BitVec 16 := a.extractLsb' 48 16

/-- The segment sub-address (R74): bits 47:0. -/
def subAddressOf (a : Word) : BitVec 48 := a.extractLsb' 0 48

end Sys2Proof.Machine
end

