-- ==== Sys2Proof/Machine/Flags.lean ====
section
/-! DEFINITION. EFLAGS: its bit positions (spec/10_state.md R30) and the flag computation of CMP
(spec/43_compare.md R200 to R202), the only one the spec gives (R39). -/

namespace Sys2Proof.Machine

/-- EFLAGS as its eight defined bits (R30): CF is bit 0, RF bit 7. -/
def Eflags.toBits (f : Eflags) : BitVec 8 :=
  BitVec.ofBool f.RF ++ BitVec.ofBool f.ID ++ BitVec.ofBool f.OF ++ BitVec.ofBool f.IF ++
    BitVec.ofBool f.TF ++ BitVec.ofBool f.SF ++ BitVec.ofBool f.ZF ++ BitVec.ofBool f.CF

/-- The flags that eight bits stand for (R30). -/
def Eflags.ofBits (v : BitVec 8) : Eflags where
  CF := v.getLsbD 0
  ZF := v.getLsbD 1
  SF := v.getLsbD 2
  TF := v.getLsbD 3
  IF := v.getLsbD 4
  OF := v.getLsbD 5
  ID := v.getLsbD 6
  RF := v.getLsbD 7

/-- The flags after comparing `va` with `vb` (R200, R202): ZF, CF, SF and OF from `r = va - vb` at the
operand width; TF, IF, ID and RF untouched. OF is the literal reading of "a change of the destination
sign bit" (R36). -/
def compareFlags {n : Nat} (f : Eflags) (va vb : BitVec n) : Eflags :=
  { f with
    ZF := va - vb == 0
    CF := decide (unsignedValue va < unsignedValue vb)
    SF := (va - vb).msb
    OF := (va - vb).msb != va.msb }

end Sys2Proof.Machine
end

