-- ==== Sys2Proof/Machine/Operands.lean ====
section
/-! DEFINITION. Operand access (spec/41_data_movement.md R160 to R162) and the stack
(R164, R165; spec/10_state.md R25). -/

namespace Sys2Proof.Machine

/-- `Src(o, S)` (R161). -/
def State.source (s : State) (sz : Size) : Source → Res (BitVec sz.bits)
  | .reg r => .ok (s.readView sz r)
  | .imm v => .ok (v.setWidth sz.bits)
  | .mem a => s.memRead sz a

/-- `Dst(d, S, v)` (R162). -/
def State.writeDest (s : State) (sz : Size) (d : Dest) (v : BitVec sz.bits) : Res State :=
  match d with
  | .reg r => .ok (s.writeView sz r v)
  | .mem a => s.memWrite sz a v

/-- The stack pointer, RSP at its full 64 bits (R25). -/
def State.sp (s : State) : Word := s.reg Reg.rsp

/-- Where a push of size `S` stores (R164): at RSP under post_decrement, at `RSP - S` under
pre_decrement. -/
def State.pushAddr (s : State) (sz : Size) : Word :=
  match s.cfg.stackDiscipline with
  | .postDecrement => s.sp
  | .preDecrement => s.sp - BitVec.ofNat 64 sz.bytes

/-- Where a pop of size `S` loads (R165): at `RSP + S` under post_decrement, at RSP under
pre_decrement. -/
def State.popAddr (s : State) (sz : Size) : Word :=
  match s.cfg.stackDiscipline with
  | .postDecrement => s.sp + BitVec.ofNat 64 sz.bytes
  | .preDecrement => s.sp

/-- The push of R164 and R180: store, and RSP lowered by `S` modulo 2^64. -/
def State.push (s : State) (sz : Size) (v : BitVec sz.bits) : Res State :=
  match s.memWrite sz (s.pushAddr sz) v with
  | .ok t => .ok (t.setReg Reg.rsp (s.sp - BitVec.ofNat 64 sz.bytes))
  | .error e => .error e

/-- The pop of R165 and R181: load, and RSP raised by `S` modulo 2^64. -/
def State.pop (s : State) (sz : Size) : Res (BitVec sz.bits × State) :=
  match s.memRead sz (s.popAddr sz) with
  | .ok v => .ok (v, s.setReg Reg.rsp (s.sp + BitVec.ofNat 64 sz.bytes))
  | .error e => .error e

end Sys2Proof.Machine
end

