-- ==== Sys2Proof/Machine/Compare.lean ====
section
/-! DEFINITION. Compare (spec/43_compare.md): CMP. -/

namespace Sys2Proof.Machine

/-- CMP (R200): Operand 1 is read first; only ZF, CF, SF and OF are written. -/
def execCmp (sz : Size) (a : Dest) (o : Source) (s : State) : Host.Outcome State Fault Refusal :=
  complete s
    (match s.source sz a.asSource with
    | .ok va =>
      match s.source sz o with
      | .ok vb => .ok (s.setFlags (compareFlags s.flags va vb))
      | .error e => .error e
    | .error e => .error e)

end Sys2Proof.Machine
end

