-- ==== Sys2Proof/Machine/ControlTransfer.lean ====
section
/-! DEFINITION. Control transfer (spec/42_control_transfer.md): CALL, RET, JMP, JNE. A transfer takes
effect at once and checks nothing of its target (R184). -/

namespace Sys2Proof.Machine

/-- CALL (R180): the return address is pushed, then the operand is read. -/
def execCall (o : Source) (s : State) : Host.Outcome State Fault Refusal :=
  complete s
    (match s.push .q s.pc with
    | .ok t =>
      match t.source .q o with
      | .ok target => .ok (t.setPc target)
      | .error e => .error e
    | .error e => .error e)

/-- RET (R181): the return address is popped. -/
def execRet (s : State) : Host.Outcome State Fault Refusal :=
  complete s
    (match s.pop .q with
    | .ok (target, t) => .ok (t.setPc target)
    | .error e => .error e)

/-- JMP (R182). -/
def execJmp (o : Source) (s : State) : Host.Outcome State Fault Refusal :=
  complete s
    (match s.source .q o with
    | .ok target => .ok (s.setPc target)
    | .error e => .error e)

/-- JNE (R183): the operand is read whether or not the jump is taken. -/
def execJne (o : Source) (s : State) : Host.Outcome State Fault Refusal :=
  complete s
    (match s.source .q o with
    | .ok target => .ok (if s.flags.ZF then s else s.setPc target)
    | .error e => .error e)

end Sys2Proof.Machine
end

