-- ==== Sys2Proof/Machine/DataMovement.lean ====
section
/-! DEFINITION. Data movement (spec/41_data_movement.md): MOV, PUSH, POP. -/

namespace Sys2Proof.Machine

/-- MOV (R163): the source is read before the destination is written. -/
def execMov (sz : Size) (d : Dest) (o : Source) (s : State) : Host.Outcome State Fault Refusal :=
  complete s
    (match s.source sz o with
    | .ok v => s.writeDest sz d v
    | .error e => .error e)

/-- PUSH (R164): the operand is read before RSP changes. -/
def execPush (sz : Size) (o : Source) (s : State) : Host.Outcome State Fault Refusal :=
  complete s
    (match s.source sz o with
    | .ok v => s.push sz v
    | .error e => .error e)

/-- POP (R165): RSP moves, then the destination is written; all of it or nothing (R232). -/
def execPop (sz : Size) (d : Dest) (s : State) : Host.Outcome State Fault Refusal :=
  complete s
    (match s.pop sz with
    | .ok (v, t) => t.writeDest sz d v
    | .error e => .error e)

end Sys2Proof.Machine
end

