-- ==== Sys2Proof/Machine/System.lean ====
section
/-! DEFINITION. The system instructions (spec/40_system.md): NOP, UD, HLT, INT, CPUID, SYSEXIT, BRK.
`s.instrAt` is the rule's `at`; `s.pc` is already the address of the next instruction (R11). -/

namespace Sys2Proof.Machine

/-- NOP (R140): no effect. -/
def execNop (s : State) : Host.Outcome State Fault Refusal := complete s (.ok s)

/-- UD (R141): raises Invalid Opcode, `Trap(4, at, at+1)`. -/
def execUd (s : State) : Host.Outcome State Fault Refusal :=
  complete s (.error (.raise Code.invalidOpcode))

/-- HLT (R142): the CPU is halted until an external interrupt. -/
def execHlt (s : State) : Host.Outcome State Fault Refusal := complete s (.ok (s.setRun .halted))

/-- What INT does with the value of its operand (R143): the whole 64-bit value is the code. -/
def interruptOf (v : Word) : Stop :=
  if v.toNat > 255 then .refuse .intCodeOutOfRange
  else if codeKind (v.setWidth 8) = .reserved then .refuse .intCodeReserved
  else .raise (v.setWidth 8)

/-- INT (R143). -/
def execInt (o : Source) (s : State) : Host.Outcome State Fault Refusal :=
  complete s
    (match s.source .q o with
    | .ok v => .error (interruptOf v)
    | .error e => .error e)

/-- CPUID_FN (R144): the register writes for a leaf, PROTECTED and the ID flag, if the configuration
gives them (log 18). -/
def cpuidWrites (cfg : Config) (leaf : Word) (idFlag : Bool) : Option (List (Reg × Word)) :=
  (cfg.cpuid.find? fun e =>
    e.leaf == leaf && e.protectedMode == cfg.protectedMode && e.idFlag == idFlag).map (·.writes)

/-- The register writes of CPUID, in order (R144). -/
def State.applyWrites (s : State) : List (Reg × Word) → State
  | [] => s
  | (r, v) :: ws => (s.setReg r v).applyWrites ws

/-- CPUID (R144). -/
def execCpuid (s : State) : Host.Outcome State Fault Refusal :=
  complete s
    (match cpuidWrites s.cfg (s.reg Reg.rax) s.flags.ID with
    | some ws => .ok (s.applyWrites ws)
    | none => .error (.refuse .cpuidNotSpecified))

/-- SYSEXIT (R145): the CPU is shut down; all state is kept. -/
def execSysexit (s : State) : Host.Outcome State Fault Refusal :=
  complete s (.ok (s.setRun .shutdown))

/-- BRK, the byte 0xCC (R146): Breakpoint, or under CC_IS_BREAKPOINT = false a reserved opcode with
`Trap(4, at, at)` (R111; log 16). -/
def execBrk (s : State) : Host.Outcome State Fault Refusal :=
  if s.cfg.ccIsBreakpoint then complete s (.error (.raise Code.breakpoint))
  else takeTrap s Code.invalidOpcode s.instrAt s.instrAt

end Sys2Proof.Machine
end

