-- ==== Sys2Proof/Machine/Dispatch.lean ====
section
/-! DEFINITION. The meaning of each instruction, one arm per constructor. -/

namespace Sys2Proof.Machine

/-- The outcome of executing an instruction in a state whose `pc` is already the address of the next
instruction (spec/00_scope.md R11 step 5). -/
def exec (i : Instr) (s : State) : Host.Outcome State Fault Refusal :=
  match i with
  | .nop => Sys2Proof.Machine.execNop s
  | .ud => Sys2Proof.Machine.execUd s
  | .hlt => Sys2Proof.Machine.execHlt s
  | .int o => Sys2Proof.Machine.execInt o s
  | .mov sz d o => Sys2Proof.Machine.execMov sz d o s
  | .push sz o => Sys2Proof.Machine.execPush sz o s
  | .pop sz d => Sys2Proof.Machine.execPop sz d s
  | .cpuid => Sys2Proof.Machine.execCpuid s
  | .call o => Sys2Proof.Machine.execCall o s
  | .ret => Sys2Proof.Machine.execRet s
  | .jmp o => Sys2Proof.Machine.execJmp o s
  | .sysexit => Sys2Proof.Machine.execSysexit s
  | .cmp sz a o => Sys2Proof.Machine.execCmp sz a o s
  | .jne o => Sys2Proof.Machine.execJne o s
  | .brk => Sys2Proof.Machine.execBrk s

end Sys2Proof.Machine
end

