-- ==== Sys2Proof/Machine/Step.lean ====
section
/-! DEFINITION. One step of the machine (spec/00_scope.md R10, R11). -/

namespace Sys2Proof.Machine

/-- One step on a platform: the step cycle of R11 with the meanings of `exec`, a CODEC and a
TRAP_HANDLER. -/
def stepOn (p : Platform) (s : State) : Host.Outcome State Fault Refusal := cycle p exec s

/-- The defaults of R5 for CODEC and TRAP_HANDLER. -/
def defaultPlatform : Platform := ⟨referenceCodec, terminalHandler⟩

/-- One step on the default platform. -/
def step (s : State) : Host.Outcome State Fault Refusal := stepOn defaultPlatform s

/-- The state with an instruction word placed where `step` fetches its next instruction: at `pc`
(log 19). -/
def State.withFetchWord (s : State) (nbits w : Nat) : State :=
  s.placeBytes s.pc (tableWordBytes nbits w)

end Sys2Proof.Machine
end

