-- ==== Sys2Proof/Safety.lean ====
section
/-! DEFINITION. What a run is and how it ends (spec/70_reset_and_hazards.md R263, R267), and the terms
the statements use: when an access is allowed, and what stays unchanged. -/

namespace Sys2Proof.Machine

/-- The `k`-step run from `s` reaches `t` (no fault, no refusal on the way). -/
def Reaches (k : Nat) (s t : State) : Prop := Host.Core.run Sys2Proof.core k s = .next t

/-- The run from `s` ends normally in `t`: the CPU has shut down by SYSEXIT (R263). -/
def EndsNormally (s t : State) : Prop := ∃ k, Reaches k s t ∧ t.run = .shutdown

/-- The halt that nothing can end: Halted with IF = 0 (R142 corner a). -/
def State.stuck (s : State) : Prop := s.run = .halted ∧ s.flags.IF = false

/-- The `n`-byte access at `a` passes `check` (R68): it stays below 2^64, the machine is in Direct
Address Mode with the Flat Memory Model, and every byte is present and not reserved. -/
def State.accessible (s : State) (a : Word) (n : Nat) : Prop :=
  a.toNat + n ≤ 2 ^ 64 ∧ s.amode = .direct ∧ s.mmodel = .flat ∧
    ∀ k, k < n → s.isReserved (a.toNat + k) = false ∧ s.isPresent (a.toNat + k) = true

/-- A source operand can be read: a memory operand lies in accessible memory (R161). -/
def State.canRead (s : State) (sz : Size) : Source → Prop
  | .reg _ => True
  | .imm _ => True
  | .mem a => s.accessible a sz.bytes

/-- A destination operand can be written (R162). -/
def State.canWrite (s : State) (sz : Size) : Dest → Prop
  | .reg _ => True
  | .mem a => s.accessible a sz.bytes

/-- The value of the `S` bytes of memory at `a` (R68), for an access that passes its check. -/
def State.memValue (s : State) (sz : Size) (a : Word) : BitVec sz.bits :=
  BitVec.ofNat sz.bits (bytesValue s.cfg.byteOrder (s.mem.readBytes a.toNat sz.bytes))

/-- The value of a source operand that can be read (R161). -/
def State.sourceValue (s : State) (sz : Size) : Source → BitVec sz.bits
  | .reg r => (s.reg r).setWidth sz.bits
  | .imm v => v.setWidth sz.bits
  | .mem a => s.memValue sz a

/-- Every general register but those of `p` is unchanged. -/
def SameRegsBut (p : Reg → Prop) (s t : State) : Prop := ∀ r, ¬ p r → t.reg r = s.reg r

/-- Every byte of memory but those of the `n` addresses from `a` up reads as before. -/
def SameMemBut (a : Word) (n : Nat) (s t : State) : Prop :=
  ∀ k, ¬ (a.toNat ≤ k ∧ k < a.toNat + n) → t.byteAt k = s.byteAt k

/-- Every byte of memory reads as before, and no byte counts as written. -/
def SameMem (s t : State) : Prop := (∀ k, t.byteAt k = s.byteAt k) ∧ t.written = s.written

/-- The state no instruction writes: segment registers (R29), modes (R40), configuration, and the
model's record of the instruction's address and of the environment. -/
def SameSystem (s t : State) : Prop :=
  t.seg = s.seg ∧ t.amode = s.amode ∧ t.mmodel = s.mmodel ∧ t.cfg = s.cfg ∧
    t.instrAt = s.instrAt ∧ t.inputs = s.inputs

/-- The flags no instruction writes (R39). -/
def SameControlFlags (s t : State) : Prop :=
  t.flags.TF = s.flags.TF ∧ t.flags.IF = s.flags.IF ∧ t.flags.ID = s.flags.ID ∧
    t.flags.RF = s.flags.RF

/-- What a write of the value `v` to the `S`-byte view leaves in a register that held `old` (R23), bit by
bit: the low `8*S` bits are `v`; the others are as NARROW_WRITE says, under havoc those of the free value
`draw`. -/
def NarrowResult (nw : NarrowWrite) (draw : Word) (sz : Size) (old : Word) (v : BitVec sz.bits)
    (new : Word) : Prop :=
  ∀ k, k < 64 → new.getLsbD k =
    if k < sz.bits then v.getLsbD k
    else
      match nw with
      | .preserve => old.getLsbD k
      | .zero32 => if sz = .d then false else old.getLsbD k
      | .havoc => draw.getLsbD k

/-- How many free values have been drawn after a register write of size `S` (R23, log 9). -/
def drawsAfter (s : State) (sz : Size) : Nat :=
  if sz ≠ .q ∧ s.cfg.narrowWrite = .havoc then s.draws + 1 else s.draws

/-- `t` is `s` in which the code `c` has been raised (R231, R232): `pc` is `next`, the run has ended in
`Trap(c, origin, next)`, and no register, flag or memory byte has changed. -/
def TrapTaken (s : State) (c : Code) (origin next : Word) (t : State) : Prop :=
  t.run = .trapped ⟨c, origin, next⟩ ∧ t.pc = next ∧ SameRegsBut (fun _ => False) s t ∧
    t.flags = s.flags ∧ SameMem s t ∧ SameSystem s t ∧ t.draws = s.draws

/-- `t` is `s` with the `n` bytes from `a` up stored to: every other byte reads as before, and the stored
addresses count as written (R80). -/
def StoredAt (a : Word) (n : Nat) (s t : State) : Prop :=
  SameMemBut a n s t ∧
    ∀ k, k ∈ t.written ↔ (a.toNat ≤ k ∧ k < a.toNat + n) ∨ k ∈ s.written

/-- The state in which a running CPU fetches, once the boundary has passed (R11 steps 1 and 2). -/
def State.fetchState (s : State) : State := s.passBoundary.beginInstr

/-- The `n` bytes at `a` lie in the address space and a modelled mode, and one of them is reserved: the
access raises Protection Exception (R76). -/
def State.hitsReserved (s : State) (a : Word) (n : Nat) : Prop :=
  a.toNat + n ≤ 2 ^ 64 ∧ s.amode = .direct ∧ s.mmodel = .flat ∧
    ∃ k, k < n ∧ s.isReserved (a.toNat + k) = true

/-- The bytes `bs` can be fetched from address `k` up (R113, R80). -/
def State.fetches (s : State) (k : Nat) (bs : List Byte) : Prop :=
  ∀ j (hj : j < bs.length), s.fetchByte (k + j) = .ok bs[j]

/-- The state with the segment registers, the Resume Flag and PROTECTED replaced. -/
def State.disguise (s : State) (seg : Segments) (rf prot : Bool) : State :=
  { s with
    seg := seg
    flags := { s.flags with RF := rf }
    cfg := { s.cfg with protectedMode := prot } }

/-- An outcome with its next state changed. -/
def mapNext (f : State → State) :
    Host.Outcome State Fault Refusal → Host.Outcome State Fault Refusal
  | .next s => .next (f s)
  | .fault r => .fault r
  | .refused r => .refused r

/-- The descriptor byte is none of RC's (R112): not 0x00 to 0x0F, 0x10 or 0x20. -/
def reservedDescriptorByte (b : Byte) : Prop := 16 ≤ b.toNat ∧ b ≠ 0x10 ∧ b ≠ 0x20

/-- The byte strings that R112 names as decode faults of RC: a size prefix before an opcode that takes
none; a reserved descriptor as Operand 1 or Operand 2; an immediate as Operand 1 of MOV, POP or CMP. -/
inductive MalformedRc (bo : ByteOrder) : List Byte → Prop where
  | sizePrefix (p : Byte) (op : Opcode) (hp : p = 0xF1 ∨ p = 0xF2 ∨ p = 0xF4)
      (ho : op.takesSizePrefix = false) : MalformedRc bo [p, op.byte]
  | operand (op : Opcode) (b : Byte) (hb : reservedDescriptorByte b)
      (ho : op = .int ∨ op = .call ∨ op = .jmp ∨ op = .jne) : MalformedRc bo [op.byte, b]
  | sizedOperand (sz : Size) (op : Opcode) (b : Byte) (hb : reservedDescriptorByte b)
      (ho : op.takesSizePrefix = true) : MalformedRc bo (encodeSize sz ++ [op.byte, b])
  | operand2 (sz : Size) (op : Opcode) (d : Dest) (b : Byte) (hb : reservedDescriptorByte b)
      (ho : op = .mov ∨ op = .cmp) :
      MalformedRc bo (encodeSize sz ++ op.byte :: (encodeSource bo sz d.asSource ++ [b]))
  | immediateDest (sz : Size) (op : Opcode) (v : Word) (ho : op = .mov ∨ op = .pop ∨ op = .cmp) :
      MalformedRc bo (encodeSize sz ++ op.byte :: encodeSource bo sz (.imm v))

/-- The invariant of the machine: memory is canonical and inside the address space; the written
addresses rise strictly, lie in present memory and are not reserved (R68, R72, R80); the segment
registers are 0 in the flat model (R29); no trap carries a reserved code (R224). -/
def State.Inv (s : State) : Prop :=
  s.mem.wf = true ∧ s.mem.inSpace = true ∧ addrRising s.written = true ∧
    (∀ k ∈ s.written, k < 2 ^ 64 ∧ s.isPresent k = true ∧ s.isReserved k = false) ∧
    (s.mmodel = .flat → s.seg = ⟨0, 0, 0⟩) ∧
    (∀ t, s.run = .trapped t → codeKind t.code ≠ .reserved)

end Sys2Proof.Machine
end

