-- ==== Sys2Proof/Certificates/Slice0/Obligations.lean ====
section
/-! DEFINITION. The statements for the provers. `s` is a state in which `exec` runs an instruction: its
`pc` is already the address of the next instruction and `instrAt` the address of this one (spec/00_scope.md
R11). Premises on memory's canonical form are `State.Inv`'s, which every step keeps. -/

open Sys2Proof Sys2Proof.Machine

/-! ## Encoding -/

/-- R113: decoding the encoding of a well-formed instruction, whatever bytes follow, gives it back with
the length the rule counts. -/
def Obligations.DecodeOfEncode : Prop :=
  ∀ (bo : ByteOrder) (i : Instr) (rest : List Byte), i.WellFormed →
    decode bo (encode bo i ++ rest) = .ok (i, i.length)

/-- R113: bytes that decode are the encoding of the well-formed instruction they decode to. -/
def Obligations.EncodeOfDecode : Prop :=
  ∀ (bo : ByteOrder) (bs : List Byte) (i : Instr) (n : Nat), decode bo bs = .ok (i, n) →
    i.WellFormed ∧ n = i.length ∧ n ≤ bs.length ∧ encode bo i = bs.take n

/-- R113: the length of an encoding, at least 1 and at most 20 bytes. -/
def Obligations.InstructionLengths : Prop :=
  ∀ (bo : ByteOrder) (i : Instr),
    (encode bo i).length = i.length ∧ 1 ≤ i.length ∧ i.length ≤ 20

/-- R113: no later byte changes the meaning of the bytes before it. -/
def Obligations.LaterBytesDoNotMatter : Prop :=
  ∀ (bo : ByteOrder) (bs more : List Byte), decode bo bs ≠ .error .needMore →
    decode bo (bs ++ more) = decode bo bs

/-- R113: the decoder needs every byte of an instruction. -/
def Obligations.EveryByteIsNeeded : Prop :=
  ∀ (bo : ByteOrder) (i : Instr) (k : Nat), i.WellFormed → k < i.length →
    decode bo ((encode bo i).take k) = .error .needMore

/-- Words written out in spec/95_test_vectors.md section 2 (E1 to E8, E16, T4, T7). -/
def Obligations.WrittenWordsDecode : Prop :=
  decode .little [0x00] = .ok (.nop, 1) ∧
  decode .little [0x04, 0x00, 0x01] = .ok (.mov .q (.reg 0) (.reg 1), 3) ∧
  decode .little [0xF2, 0x04, 0x08, 0x03] = .ok (.mov .w (.reg 8) (.reg 3), 4) ∧
  decode .little [0xF1, 0x0C, 0x02, 0x10, 0x7F] = .ok (.cmp .b (.reg 2) (.imm 0x7F), 5) ∧
  decode .little [0x0A, 0x00] = .ok (.jmp (.reg 0), 2) ∧
  decode .little [0xCC] = .ok (.brk, 1) ∧
  decode .little [0x08, 0x10, 0x00, 0x20, 0, 0, 0, 0, 0, 0] = .ok (.call (.imm 0x2000), 10) ∧
  decode .little [0x0D, 0x10, 0x00, 0x10, 0, 0, 0, 0, 0, 0] = .ok (.jne (.imm 0x1000), 10)

/-- R110: a reserved opcode byte, first or behind a size prefix, is Trap(4, at, at). -/
def Obligations.ReservedOpcodeTraps : Prop :=
  ∀ (s : State) (b : Byte), s.run = .running → s.accepted = none →
    (0x0E ≤ b.toNat ∧ b.toNat ≤ 0xCB ∨ 0xCD ≤ b.toNat) →
    ((b ≠ 0xF1 ∧ b ≠ 0xF2 ∧ b ≠ 0xF4 ∧ s.fetchState.fetches s.pc.toNat [b]) ∨
      ∃ p, (p = 0xF1 ∨ p = 0xF2 ∨ p = 0xF4) ∧ s.fetchState.fetches s.pc.toNat [p, b]) →
    ∃ t, step s = .next t ∧ TrapTaken s.fetchState 4 s.pc s.pc t

/-- R112: the other decode faults of RC are Trap(4, at, at) as well. -/
def Obligations.MalformedBytesTrap : Prop :=
  ∀ (s : State) (bs : List Byte), s.run = .running → s.accepted = none →
    MalformedRc s.cfg.byteOrder bs → s.fetchState.fetches s.pc.toNat bs →
    ∃ t, step s = .next t ∧ TrapTaken s.fetchState 4 s.pc s.pc t

/-! ## The step cycle -/

/-- R11: when the bytes at `pc` decode to an instruction of `n` bytes and no interrupt is taken, the step
is `exec` of it with `pc` moved past it, followed by the single-step check. -/
def Obligations.StepRunsDecoded : Prop :=
  ∀ (s : State) (bs : List Byte) (i : Instr) (n : Nat), s.run = .running → s.accepted = none →
    s.fetchState.fetches s.pc.toNat bs → decode s.cfg.byteOrder bs = .ok (i, n) →
    step s = singleStep (exec i
      { s with inputs := s.inputs.tail, instrAt := s.pc, pc := s.pc + BitVec.ofNat 64 n })

/-- R223: with TF = 1 an instruction that completes and leaves the CPU running is followed by
Trap(12, at, pc); one that traps, halts or shuts down adds none, and none is added with TF = 0. -/
def Obligations.SingleStepAfterCompletion : Prop :=
  ∀ (i : Instr) (s t : State), exec i s = .next t →
    (t.run = .running → s.flags.TF = true →
      ∃ u, singleStep (exec i s) = .next u ∧ TrapTaken t 12 s.instrAt t.pc u) ∧
    (t.run ≠ .running ∨ s.flags.TF = false → singleStep (exec i s) = .next t)

/-- R228: a presented external interrupt is taken exactly with IF = 1, as Trap(n, pc, pc), between
instructions or in a halt; with IF = 0 the step is the one that would have happened without it; no step
changes IF. That the presentations are a schedule in the state is the model's choice (log 10). -/
def Obligations.ExternalInterrupt : Prop :=
  (∀ (s : State) (n : Fin 224), s.run = .running ∨ s.run = .halted → s.presented = some n →
    (s.flags.IF = true → ∃ t, step s = .next t ∧
      TrapTaken s.passBoundary (BitVec.ofNat 8 (32 + n.val)) s.pc s.pc t) ∧
    (s.flags.IF = false → step s = step { s with inputs := none :: s.inputs.tail })) ∧
  ∀ s t : State, step s = .next t → t.flags.IF = s.flags.IF

/-- R142: a halted CPU executes nothing until it takes an interrupt. -/
def Obligations.HaltWaits : Prop :=
  ∀ s : State, s.run = .halted → s.accepted = none →
    step s = .next { s with inputs := s.inputs.tail }

/-- R142 corner a: a halt with IF = 0 goes on for ever, whatever the environment presents, and its run
does not end normally. -/
def Obligations.StuckHaltNeverEnds : Prop :=
  ∀ s : State, s.stuck →
    (∀ k, ∃ t, Reaches k s t ∧ t.stuck ∧ t.pc = s.pc ∧ t.x = s.x ∧ t.flags = s.flags ∧
      t.mem = s.mem) ∧
    ¬ ∃ t, EndsNormally s t

/-- R145, R231, R260: nothing happens any more after a shutdown or a terminal trap. -/
def Obligations.FinalStatesStay : Prop :=
  ∀ (s : State) (k : Nat), (s.run = .shutdown ∨ ∃ r, s.run = .trapped r) → Reaches k s s

/-- R263: the run ends normally exactly by a SYSEXIT that it executes, and the final state is the state at
that moment with `pc` after the SYSEXIT. -/
def Obligations.EndsOnlyBySysexit : Prop :=
  ∀ s t : State, s.run ≠ .shutdown → (EndsNormally s t ↔
    ∃ k u, Reaches k s u ∧ u.run = .running ∧ u.accepted = none ∧
      u.fetchState.fetchDecode = .ok (.sysexit, 1) ∧
      t = (u.fetchState.advance 1).setRun .shutdown)

/-- R232: a raising instruction has changed nothing, and `pc` is the trap's `next`: the address after it,
or for a reserved 0xCC, a decode fault and a fetch fault its own address. -/
def Obligations.TrapsArePrecise : Prop :=
  (∀ (i : Instr) (s t : State) (r : TrapRecord), exec i s = .next t → s.run = .running →
    t.run = .trapped r →
      TrapTaken s r.code s.instrAt r.next t ∧ r.origin = s.instrAt ∧
        (r.next = s.pc ∨ (i = .brk ∧ s.cfg.ccIsBreakpoint = false ∧ r.next = s.instrAt))) ∧
  (∀ (s : State) (c : Code), s.run = .running → s.accepted = none →
    s.fetchState.fetchDecode = .error (.raise c) →
      ∃ t, step s = .next t ∧ TrapTaken s.fetchState c s.pc s.pc t)

/-- R227: what a run can raise, in one list: each trap of a step has one of these causes. -/
def Obligations.RaisableCodes : Prop :=
  ∀ (s t : State) (r : TrapRecord), step s = .next t → s.run = .running ∨ s.run = .halted →
    t.run = .trapped r →
      (r.code = 4 ∧ (s.fetchState.fetchDecode = .error (.raise 4) ∨
        (∃ n, s.fetchState.fetchDecode = .ok (.ud, n)) ∨
        (∃ n, s.fetchState.fetchDecode = .ok (.brk, n) ∧ s.cfg.ccIsBreakpoint = false))) ∨
      (r.code = 2 ∧ s.cfg.ccIsBreakpoint = true ∧
        ∃ n, s.fetchState.fetchDecode = .ok (.brk, n)) ∨
      (r.code = 11 ∧ ∃ a, s.isReserved a = true) ∨
      (r.code = 12 ∧ s.flags.TF = true) ∨
      (s.flags.IF = true ∧ ∃ n : Fin 224, s.presented = some n ∧
        r.code = BitVec.ofNat 8 (32 + n.val)) ∨
      (r.code.toNat ≤ 12 ∨ 32 ≤ r.code.toNat) ∧
        ∃ o n, s.fetchState.fetchDecode = .ok (.int o, n)

/-! ## The function parameters -/

/-- R101: RC meets the contract of a codec and is the default; on any platform a running CPU that takes no
interrupt executes the instruction its codec reads, a code its codec raises goes to TRAP_HANDLER as
Trap(c, at, at), and for a codec that meets the contract an unlisted opcode byte does so with code 4. The codec as an
argument of the step is the model's form (log 28). -/
def Obligations.CodecIsAParameter : Prop :=
  referenceCodec.Lawful ∧ (∀ s : State, step s = stepOn ⟨referenceCodec, terminalHandler⟩ s) ∧
  (∀ (p : Platform) (s : State) (i : Instr) (n : Nat), s.run = .running → s.accepted = none →
    p.codec.decode s.cfg.byteOrder s.fetchState.fetchByte s.pc.toNat = .ok (i, n) →
    stepOn p s = deliver p.trapHandler (singleStep (exec i
      { s with inputs := s.inputs.tail, instrAt := s.pc, pc := s.pc + BitVec.ofNat 64 n }))) ∧
  (∀ (p : Platform) (s : State) (c : Code), s.run = .running → s.accepted = none →
    p.codec.decode s.cfg.byteOrder s.fetchState.fetchByte s.pc.toNat = .error (.raise c) →
    stepOn p s = p.trapHandler s.fetchState c s.pc s.pc) ∧
  (∀ (p : Platform) (s : State) (b : Byte), p.codec.Lawful → s.run = .running → s.accepted = none →
    p.codec.opcodeByte s.cfg.byteOrder s.fetchState.fetchByte s.pc.toNat = .ok b →
    (0x0E ≤ b.toNat ∧ b.toNat ≤ 0xCB ∨ 0xCD ≤ b.toNat) →
    stepOn p s = p.trapHandler s.fetchState 4 s.pc s.pc)

/-- R231: on a platform with handler `h` the step that would end in a trap is `h` of the state that trap
left, with `pc` at its `next`, and of its code, `at` and `next`; every other step is as with the default
handler, and nothing happens in a shutdown or after a terminal trap. A handler as an argument of the step is
the model's form (log 28). -/
def Obligations.TrapHandlerDelivers : Prop :=
  (∀ (c : Codec) (h : TrapHandler) (s : State), s.run = .running ∨ s.run = .halted →
    (∀ (t : State) (r : TrapRecord), stepOn ⟨c, terminalHandler⟩ s = .next t → t.run = .trapped r →
      t.pc = r.next ∧ stepOn ⟨c, h⟩ s = h (t.setRun .running) r.code r.origin r.next) ∧
    (∀ t : State, stepOn ⟨c, terminalHandler⟩ s = .next t → (∀ r, t.run ≠ .trapped r) →
      stepOn ⟨c, h⟩ s = .next t) ∧
    (∀ f, stepOn ⟨c, terminalHandler⟩ s = .fault f → stepOn ⟨c, h⟩ s = .fault f) ∧
    (∀ r, stepOn ⟨c, terminalHandler⟩ s = .refused r → stepOn ⟨c, h⟩ s = .refused r)) ∧
  (∀ (p : Platform) (s : State), s.run = .shutdown ∨ (∃ r, s.run = .trapped r) →
    stepOn p s = .next s)

/-! ## Invariants and whole-machine rules -/

/-- The invariant of the machine is kept by every step. -/
def Obligations.StepKeepsInvariant : Prop :=
  ∀ s t : State, s.Inv → step s = .next t → t.Inv

/-- The invariant holds at reset, for every launch with canonical memory inside the address space. -/
def Obligations.ResetHasInvariant : Prop :=
  State.reset.Inv ∧ ∀ l : Launch, Memory.wf l.mem = true → Memory.inSpace l.mem = true →
    (State.ofLaunch l).Inv

/-- R29, R34, R35, R37, R38, R40: no step changes a segment register, a mode, the configuration or the
flags TF, IF, ID and RF. -/
def Obligations.FixedStateStays : Prop :=
  ∀ s t : State, step s = .next t →
    t.seg = s.seg ∧ t.amode = s.amode ∧ t.mmodel = s.mmodel ∧ t.cfg = s.cfg ∧
      SameControlFlags s t

/-- R72, R76: no step changes a byte of reserved memory or of an address that holds no memory. -/
def Obligations.ReservedMemoryStays : Prop :=
  ∀ (s t : State) (a : Nat), step s = .next t → s.isReserved a = true ∨ s.isPresent a = false →
    t.byteAt a = s.byteAt a

/-- R80: the record of written bytes holds every byte a step changes, and forgets none. -/
def Obligations.WrittenRecordIsComplete : Prop :=
  ∀ s t : State, step s = .next t →
    (∀ a, t.byteAt a ≠ s.byteAt a → a ∈ t.written) ∧ ∀ a, a ∈ s.written → a ∈ t.written

/-- R29, R38, R236: no step reads a segment register or RF, and only one that executes CPUID reads
PROTECTED: with them replaced a step answers the same with them replaced. -/
def Obligations.HiddenStateIsNotRead : Prop :=
  (∀ (s : State) (seg : Segments) (rf : Bool),
    step (s.disguise seg rf s.cfg.protectedMode) =
      mapNext (fun t => t.disguise seg rf s.cfg.protectedMode) (step s)) ∧
  (∀ (s : State) (seg : Segments) (rf prot : Bool),
    (s.run = .running → s.accepted = none → ∀ n, s.fetchState.fetchDecode ≠ .ok (.cpuid, n)) →
    step (s.disguise seg rf prot) = mapNext (fun t => t.disguise seg rf prot) (step s))

/-- R45: the state after reset, for every launch; and the machine's own reset is one of them. -/
def Obligations.ResetValues : Prop :=
  (∀ l : Launch, (State.ofLaunch l).amode = .direct ∧ (State.ofLaunch l).mmodel = .flat ∧
    (State.ofLaunch l).seg = ⟨0, 0, 0⟩ ∧ (State.ofLaunch l).run = .running ∧
    (State.ofLaunch l).pc = l.resetIp ∧ (State.ofLaunch l).x = l.resetGpr ∧
    (State.ofLaunch l).flags = l.resetFlags ∧ (State.ofLaunch l).mem = l.mem ∧
    (State.ofLaunch l).cfg = l.cfg) ∧
  ∃ l, State.reset = State.ofLaunch l

/-! ## Memory -/

/-- R68: the check with its order, MemRead and MemWrite. Under the default little-endian order byte `k` of
a value is at address `a + k`; under BYTE_ORDER = big (R67) at `a + n - 1 - k`. -/
def Obligations.MemoryPrimitives : Prop :=
  ∀ (s : State) (sz : Size) (a : Word) (v : BitVec sz.bits),
    (s.check a sz.bytes =
      if a.toNat + sz.bytes > 2 ^ 64 then .error (.fault .accessWraps)
      else if ¬ (s.amode = .direct ∧ s.mmodel = .flat) then .error (.refuse .modeNotModelled)
      else if ∃ k < sz.bytes, s.isReserved (a.toNat + k) = true then .error (.raise 11)
      else if ∃ k < sz.bytes, s.isPresent (a.toNat + k) = false then .error (.fault .noMemory)
      else .ok ()) ∧
    (∀ e, s.check a sz.bytes = .error e →
      s.memRead sz a = .error e ∧ s.memWrite sz a v = .error e) ∧
    (s.check a sz.bytes = .ok () → ∃ w, s.memRead sz a = .ok w ∧ w = s.memValue sz a ∧
      ∀ k < sz.bytes, w.extractLsb' (8 * k) 8 =
        match s.cfg.byteOrder with
        | .little => s.byteAt (a.toNat + k)
        | .big => s.byteAt (a.toNat + (sz.bytes - 1 - k))) ∧
    (s.check a sz.bytes = .ok () → s.mem.wf = true → ∃ t, s.memWrite sz a v = .ok t ∧
      (∀ k < sz.bytes, v.extractLsb' (8 * k) 8 =
        match s.cfg.byteOrder with
        | .little => t.byteAt (a.toNat + k)
        | .big => t.byteAt (a.toNat + (sz.bytes - 1 - k))) ∧
      StoredAt a sz.bytes s t ∧ t.x = s.x ∧ t.pc = s.pc ∧ t.flags = s.flags ∧ t.run = s.run ∧
      SameSystem s t ∧ t.draws = s.draws)

/-- R67, R77: a read after a write gives the value written; with little-endian order a byte read at the
same address gives its bits 7:0. -/
def Obligations.ReadAfterWrite : Prop :=
  ∀ (s t : State) (sz : Size) (a : Word) (v : BitVec sz.bits), s.mem.wf = true →
    s.memWrite sz a v = .ok t →
      t.memRead sz a = .ok v ∧
        (s.cfg.byteOrder = .little → t.memRead .b a = .ok (v.setWidth 8))

/-- R82: an access across the top of the address space is refused, and PUSH, CALL, RET and a POP whose
destination is not RSP move the stack pointer modulo 2^64 when they complete. -/
def Obligations.TopOfTheAddressSpace : Prop :=
  (∀ (s : State) (sz : Size) (a : Word) (v : BitVec sz.bits), a.toNat + sz.bytes > 2 ^ 64 →
    s.memRead sz a = .error (.fault .accessWraps) ∧
      s.memWrite sz a v = .error (.fault .accessWraps)) ∧
  (∀ (s t : State) (sz : Size) (o : Source), s.run = .running → exec (.push sz o) s = .next t →
    t.run = .running → t.sp.toNat = (s.sp.toNat + 2 ^ 64 - sz.bytes) % 2 ^ 64) ∧
  (∀ (s t : State) (sz : Size) (d : Dest), s.run = .running → exec (.pop sz d) s = .next t →
    t.run = .running → d ≠ .reg 7 → t.sp.toNat = (s.sp.toNat + sz.bytes) % 2 ^ 64) ∧
  (∀ (s t : State) (o : Source), s.run = .running → exec (.call o) s = .next t →
    t.run = .running → t.sp.toNat = (s.sp.toNat + 2 ^ 64 - 8) % 2 ^ 64) ∧
  (∀ s t : State, s.run = .running → exec .ret s = .next t →
    t.run = .running → t.sp.toNat = (s.sp.toNat + 8) % 2 ^ 64)

/-- R76: in Direct mode with the Flat model a memory access raises Protection Exception and nothing
else, exactly when a byte of it is reserved. -/
def Obligations.ProtectionIsTheOnlyException : Prop :=
  ∀ (s : State) (sz : Size) (a : Word) (v : BitVec sz.bits) (c : Code),
    s.amode = .direct → s.mmodel = .flat → a.toNat + sz.bytes ≤ 2 ^ 64 →
      (s.memRead sz a = .error (.raise c) ↔
        c = 11 ∧ ∃ k < sz.bytes, s.isReserved (a.toNat + k) = true) ∧
      (s.memWrite sz a v = .error (.raise c) ↔
        c = 11 ∧ ∃ k < sz.bytes, s.isReserved (a.toNat + k) = true)

/-- R80: a fetch reads memory like a data read; under SMC_POLICY = refuse the fetch of a byte a MemWrite of
this run has written is refused, under coherent it sees it. -/
def Obligations.FetchOfWrittenBytes : Prop :=
  (∀ (s t : State) (sz : Size) (a : Word) (v : BitVec sz.bits), s.memWrite sz a v = .ok t →
    ∀ k, k ∈ t.written ↔ (a.toNat ≤ k ∧ k < a.toNat + sz.bytes) ∨ k ∈ s.written) ∧
  ∀ (s : State) (a : Word), s.accessible a 1 →
    (s.cfg.smcPolicy = .coherent → s.fetchByte a.toNat = s.memRead .b a) ∧
    (s.cfg.smcPolicy = .refuse → a.toNat ∉ s.written → s.fetchByte a.toNat = s.memRead .b a) ∧
    (s.cfg.smcPolicy = .refuse → a.toNat ∈ s.written →
      s.fetchByte a.toNat = .error (.refuse .selfModifyingCode)) ∧
    (s.cfg.smcPolicy = .refuse → a.toNat ∈ s.written → s.run = .running → s.accepted = none →
      s.pc = a → step s = .refused .selfModifyingCode)

/-- R74, R75: the machine does not run in Virtual Address Mode or the Segmented Memory Model. -/
def Obligations.OtherModesAreRefused : Prop :=
  ∀ s : State, s.run = .running → s.accepted = none →
    s.amode = .virtual ∨ s.mmodel = .segmented → step s = .refused .modeNotModelled

/-- R28: an instruction whose bytes would lie across the top of the address space is refused. -/
def Obligations.FetchAcrossTheTop : Prop :=
  ∀ (s : State) (i : Instr) (k : Nat), s.run = .running → s.accepted = none → i.WellFormed →
    k < i.length → s.pc.toNat + k = 2 ^ 64 →
    s.fetchState.fetches s.pc.toNat ((encode s.cfg.byteOrder i).take k) →
    step s = .fault .fetchWraps

/-- R222: an operand, a stack slot or an instruction byte in reserved memory raises Protection
Exception, Trap(11, at, next), before the access is done; the source operand, the destination, the stack
access and the fetch of any byte the decoder needs, each form named. -/
def Obligations.ReservedMemoryTraps : Prop :=
  (∀ (s : State) (a : Word) (i : Instr), s.hitsReserved a 8 →
    i = .int (.mem a) ∨ i = .jmp (.mem a) ∨ i = .jne (.mem a) →
      ∃ t, exec i s = .next t ∧ TrapTaken s 11 s.instrAt s.pc t) ∧
  (∀ (s : State) (sz : Size) (a : Word) (d : Dest) (o : Source) (i : Instr),
    s.hitsReserved a sz.bytes →
    i = .mov sz d (.mem a) ∨ i = .push sz (.mem a) ∨ i = .cmp sz (.mem a) o ∨
      (i = .mov sz (.mem a) o ∧ s.canRead sz o) ∨
      (i = .cmp sz d (.mem a) ∧ s.canRead sz d.asSource) →
      ∃ t, exec i s = .next t ∧ TrapTaken s 11 s.instrAt s.pc t) ∧
  (∀ (s : State) (sz : Size) (o : Source), s.hitsReserved (s.pushAddr sz) sz.bytes →
    s.canRead sz o → ∃ t, exec (.push sz o) s = .next t ∧ TrapTaken s 11 s.instrAt s.pc t) ∧
  (∀ (s : State) (o : Source), s.hitsReserved (s.pushAddr .q) 8 →
    ∃ t, exec (.call o) s = .next t ∧ TrapTaken s 11 s.instrAt s.pc t) ∧
  (∀ (s : State) (a : Word), s.accessible (s.pushAddr .q) 8 → s.hitsReserved a 8 →
    ∃ t, exec (.call (.mem a)) s = .next t ∧ TrapTaken s 11 s.instrAt s.pc t) ∧
  (∀ (s : State) (sz : Size) (d : Dest), s.hitsReserved (s.popAddr sz) sz.bytes →
    ∃ t, exec (.pop sz d) s = .next t ∧ TrapTaken s 11 s.instrAt s.pc t) ∧
  (∀ (s : State) (sz : Size) (a : Word), s.accessible (s.popAddr sz) sz.bytes →
    s.hitsReserved a sz.bytes →
    ∃ t, exec (.pop sz (.mem a)) s = .next t ∧ TrapTaken s 11 s.instrAt s.pc t) ∧
  (∀ s : State, s.hitsReserved (s.popAddr .q) 8 →
    ∃ t, exec .ret s = .next t ∧ TrapTaken s 11 s.instrAt s.pc t) ∧
  (∀ (s : State) (bs : List Byte), s.run = .running → s.accepted = none →
    s.fetchState.fetches s.pc.toNat bs → decode s.cfg.byteOrder bs = .error .needMore →
    s.pc.toNat + bs.length < 2 ^ 64 → s.hitsReserved (s.pc + BitVec.ofNat 64 bs.length) 1 →
    ∃ t, step s = .next t ∧ TrapTaken s.fetchState 11 s.pc s.pc t)

/-- R113, R28, R72, R80: a byte the decoder still needs after `bs` (none or more bytes that could be
fetched) stops the step if it lies at 2^64, outside present memory, or has been written under
SMC_POLICY = refuse. -/
def Obligations.FetchStopsTheStep : Prop :=
  ∀ (s : State) (bs : List Byte), s.run = .running → s.accepted = none →
    s.fetchState.fetches s.pc.toNat bs → decode s.cfg.byteOrder bs = .error .needMore →
    (s.pc.toNat + bs.length = 2 ^ 64 → step s = .fault .fetchWraps) ∧
    (s.pc.toNat + bs.length < 2 ^ 64 → s.amode = .direct → s.mmodel = .flat →
      s.isReserved (s.pc.toNat + bs.length) = false →
      s.isPresent (s.pc.toNat + bs.length) = false → step s = .fault .noMemory) ∧
    (s.pc.toNat + bs.length < 2 ^ 64 → s.accessible (s.pc + BitVec.ofNat 64 bs.length) 1 →
      s.cfg.smcPolicy = .refuse → s.pc.toNat + bs.length ∈ s.written →
      step s = .refused .selfModifyingCode)

/-! ## System instructions -/

/-- R140: NOP changes nothing, and its step moves `pc` by one. -/
def Obligations.NopOnlyAdvances : Prop :=
  (∀ s : State, exec .nop s = .next s) ∧
  (∀ s : State, s.run = .running → s.accepted = none → s.flags.TF = false →
    s.fetchState.fetches s.pc.toNat [0x00] →
    ∃ t, step s = .next t ∧ t.pc = s.pc + 1 ∧ t.x = s.x ∧ t.flags = s.flags ∧ t.run = .running ∧
      SameMem s t)

/-- R141: UD raises Invalid Opcode, with `next` the address after it, at + 1. -/
def Obligations.UdRaises : Prop :=
  (∀ s : State, ∃ t, exec .ud s = .next t ∧ TrapTaken s 4 s.instrAt s.pc t) ∧
  (∀ s : State, s.run = .running → s.accepted = none → s.fetchState.fetches s.pc.toNat [0x01] →
    ∃ t, step s = .next t ∧ TrapTaken (s.fetchState.advance 1) 4 s.pc (s.pc + 1) t)

/-- R146: BRK raises Breakpoint, Trap(2, at, at + 1); under CC_IS_BREAKPOINT = false it is a reserved
opcode, Trap(4, at, at). -/
def Obligations.BrkRaises : Prop :=
  (∀ s : State,
    (s.cfg.ccIsBreakpoint = true →
      ∃ t, exec .brk s = .next t ∧ TrapTaken s 2 s.instrAt s.pc t) ∧
    (s.cfg.ccIsBreakpoint = false →
      ∃ t, exec .brk s = .next t ∧ TrapTaken s 4 s.instrAt s.instrAt t)) ∧
  (∀ s : State, s.run = .running → s.accepted = none → s.fetchState.fetches s.pc.toNat [0xCC] →
    ∃ t, step s = .next t ∧
      (s.cfg.ccIsBreakpoint = true → TrapTaken (s.fetchState.advance 1) 2 s.pc (s.pc + 1) t) ∧
      (s.cfg.ccIsBreakpoint = false → TrapTaken s.fetchState 4 s.pc s.pc t))

/-- R142: HLT halts the CPU and changes nothing else. -/
def Obligations.HltHalts : Prop :=
  ∀ s : State, ∃ t, exec .hlt s = .next t ∧ t.run = .halted ∧ t.pc = s.pc ∧
    SameRegsBut (fun _ => False) s t ∧ t.flags = s.flags ∧ SameMem s t ∧ SameSystem s t ∧
    t.draws = s.draws

/-- R145: SYSEXIT shuts the CPU down, keeps all other state, and nothing happens after it. -/
def Obligations.SysexitShutsDown : Prop :=
  ∀ s : State, ∃ t, exec .sysexit s = .next t ∧ t.run = .shutdown ∧ t.pc = s.pc ∧
    SameRegsBut (fun _ => False) s t ∧ t.flags = s.flags ∧ SameMem s t ∧ SameSystem s t ∧
    t.draws = s.draws ∧ step t = .next t

/-- R143: INT raises the code its 64-bit operand names, 0 to 12 or 32 to 255, whatever IF and OF are; a
larger value and a reserved code are refused; an operand in reserved memory raises 11. -/
def Obligations.IntRaises : Prop :=
  ∀ (s : State) (o : Source),
    (s.canRead .q o →
      ((s.sourceValue .q o).toNat ≤ 12 ∨
        32 ≤ (s.sourceValue .q o).toNat ∧ (s.sourceValue .q o).toNat ≤ 255 →
        ∃ t, exec (.int o) s = .next t ∧
          TrapTaken s (BitVec.ofNat 8 (s.sourceValue .q o).toNat) s.instrAt s.pc t) ∧
      (13 ≤ (s.sourceValue .q o).toNat ∧ (s.sourceValue .q o).toNat ≤ 31 →
        exec (.int o) s = .refused .intCodeReserved) ∧
      (255 < (s.sourceValue .q o).toNat → exec (.int o) s = .refused .intCodeOutOfRange)) ∧
    (∀ a, o = .mem a → s.hitsReserved a 8 →
      ∃ t, exec (.int o) s = .next t ∧ TrapTaken s 11 s.instrAt s.pc t)

/-- R144: CPUID applies the register writes that CPUID_FN gives for RAX, PROTECTED and ID, each register
ending with its last write, and changes nothing else; an input without writes is refused, as by default
every input is. -/
def Obligations.CpuidWrites : Prop :=
  (∀ (leaf : Word) (id : Bool), cpuidWrites Config.default leaf id = none) ∧
  ∀ s : State,
    (∀ ws, cpuidWrites s.cfg (s.reg 0) s.flags.ID = some ws →
      ∃ t, exec .cpuid s = .next t ∧
        (∀ r, t.reg r = ws.foldl (fun v w => if w.1 = r then w.2 else v) (s.reg r)) ∧
        t.pc = s.pc ∧ t.flags = s.flags ∧ t.run = s.run ∧ SameMem s t ∧ SameSystem s t ∧
        t.draws = s.draws) ∧
    (cpuidWrites s.cfg (s.reg 0) s.flags.ID = none → exec .cpuid s = .refused .cpuidNotSpecified)

/-! ## Registers and data movement -/

/-- R22: the `S`-byte view of a register is its low `8*S` bits and reads nothing else. -/
def Obligations.NarrowRead : Prop :=
  ∀ (s : State) (sz : Size) (r : Reg),
    (∀ k < sz.bits, (s.readView sz r).getLsbD k = (s.reg r).getLsbD k) ∧
    ∀ t : State, t.reg r = s.reg r → t.readView sz r = s.readView sz r

/-- R23: a write of a view, bit by bit and for each NARROW_WRITE; no other register changes; under havoc
one free value is drawn for S < 8; the default is `preserve`. -/
def Obligations.NarrowWrite : Prop :=
  Config.default.narrowWrite = .preserve ∧
  ∀ (s : State) (sz : Size) (r : Reg) (v : BitVec sz.bits) (k : Nat), k < 64 →
    ((s.writeView sz r v).reg r).getLsbD k =
      (if k < sz.bits then v.getLsbD k
      else
        match s.cfg.narrowWrite with
        | .preserve => (s.reg r).getLsbD k
        | .zero32 => if sz = .d then false else (s.reg r).getLsbD k
        | .havoc => (Config.freeUpper s.draws).getLsbD k) ∧
    SameRegsBut (fun i => i = r) s (s.writeView sz r v) ∧
    (s.writeView sz r v).draws =
      if sz ≠ .q ∧ s.cfg.narrowWrite = .havoc then s.draws + 1 else s.draws

/-- MOV to a register (R163): the source's value in the `S`-byte view, the upper bits by NARROW_WRITE. -/
def Obligations.MovToRegister : Prop :=
  ∀ (s : State) (sz : Size) (r : Reg) (o : Source), s.canRead sz o →
    ∃ t, exec (.mov sz (.reg r) o) s = .next t ∧
      NarrowResult s.cfg.narrowWrite (Config.freeUpper s.draws) sz (s.reg r) (s.sourceValue sz o)
        (t.reg r) ∧
      SameRegsBut (fun k => k = r) s t ∧ t.pc = s.pc ∧ t.flags = s.flags ∧ t.run = s.run ∧
      SameMem s t ∧ SameSystem s t ∧ t.draws = drawsAfter s sz

/-- MOV to memory (R163): the old value of the source, stored in the `S` bytes at the address. -/
def Obligations.MovToMemory : Prop :=
  ∀ (s : State) (sz : Size) (a : Word) (o : Source), s.mem.wf = true → s.canRead sz o →
    s.accessible a sz.bytes →
    ∃ t, exec (.mov sz (.mem a) o) s = .next t ∧ t.memValue sz a = s.sourceValue sz o ∧
      StoredAt a sz.bytes s t ∧ SameRegsBut (fun _ => False) s t ∧ t.pc = s.pc ∧
      t.flags = s.flags ∧ t.run = s.run ∧ SameSystem s t ∧ t.draws = s.draws

/-- PUSH (R164), both stack disciplines: where it stores, what, and RSP lowered by `S`. -/
def Obligations.PushResult : Prop :=
  ∀ (s : State) (sz : Size) (o : Source), s.mem.wf = true → s.canRead sz o →
    s.accessible (s.pushAddr sz) sz.bytes →
    (s.cfg.stackDiscipline = .postDecrement → s.pushAddr sz = s.reg 7) ∧
    (s.cfg.stackDiscipline = .preDecrement →
      s.pushAddr sz = s.reg 7 - BitVec.ofNat 64 sz.bytes) ∧
    ∃ t, exec (.push sz o) s = .next t ∧ t.memValue sz (s.pushAddr sz) = s.sourceValue sz o ∧
      t.reg 7 = s.reg 7 - BitVec.ofNat 64 sz.bytes ∧ StoredAt (s.pushAddr sz) sz.bytes s t ∧
      SameRegsBut (fun k => k = 7) s t ∧ t.pc = s.pc ∧ t.flags = s.flags ∧ t.run = s.run ∧
      SameSystem s t ∧ t.draws = s.draws

/-- POP to a register (R165), both stack disciplines: RSP is raised by `S` first, then the destination is
written, so that POP RSP ends with the popped value in RSP's view. -/
def Obligations.PopToRegister : Prop :=
  ∀ (s : State) (sz : Size) (r : Reg), s.accessible (s.popAddr sz) sz.bytes →
    (s.cfg.stackDiscipline = .postDecrement →
      s.popAddr sz = s.reg 7 + BitVec.ofNat 64 sz.bytes) ∧
    (s.cfg.stackDiscipline = .preDecrement → s.popAddr sz = s.reg 7) ∧
    ∃ t, exec (.pop sz (.reg r)) s = .next t ∧
      NarrowResult s.cfg.narrowWrite (Config.freeUpper s.draws) sz
        (if r = 7 then s.reg 7 + BitVec.ofNat 64 sz.bytes else s.reg r)
        (s.memValue sz (s.popAddr sz)) (t.reg r) ∧
      (r ≠ 7 → t.reg 7 = s.reg 7 + BitVec.ofNat 64 sz.bytes) ∧
      SameRegsBut (fun k => k = r ∨ k = 7) s t ∧ t.pc = s.pc ∧ t.flags = s.flags ∧
      t.run = s.run ∧ SameMem s t ∧ SameSystem s t ∧ t.draws = drawsAfter s sz

/-- POP to memory (R165). -/
def Obligations.PopToMemory : Prop :=
  ∀ (s : State) (sz : Size) (a : Word), s.mem.wf = true →
    s.accessible (s.popAddr sz) sz.bytes → s.accessible a sz.bytes →
    ∃ t, exec (.pop sz (.mem a)) s = .next t ∧
      t.memValue sz a = s.memValue sz (s.popAddr sz) ∧
      t.reg 7 = s.reg 7 + BitVec.ofNat 64 sz.bytes ∧ StoredAt a sz.bytes s t ∧
      SameRegsBut (fun k => k = 7) s t ∧ t.pc = s.pc ∧ t.flags = s.flags ∧ t.run = s.run ∧
      SameSystem s t ∧ t.draws = s.draws

/-- R165: a POP into a register right after a PUSH of the same size gives the pushed value and leaves RSP
as it was, under either stack discipline and byte order. -/
def Obligations.PopUndoesPush : Prop :=
  ∀ (s t : State) (sz : Size) (o : Source) (r : Reg), s.mem.wf = true → s.run = .running →
    exec (.push sz o) s = .next t → t.run = .running →
    ∃ u, exec (.pop sz (.reg r)) t = .next u ∧ u.readView sz r = s.sourceValue sz o ∧
      (r ≠ 7 → u.reg 7 = s.reg 7) ∧ SameRegsBut (fun k => k = r ∨ k = 7) s u ∧ SameMem t u

/-! ## Control transfer -/

/-- CALL (R180): the return address is stored in the stack slot, RSP lowered by 8, and the operand read
after that: its value in the resulting registers and memory is the target. -/
def Obligations.CallResult : Prop :=
  ∀ (s : State) (o : Source), s.mem.wf = true → s.accessible (s.pushAddr .q) 8 →
    s.canRead .q o →
    ∃ t, exec (.call o) s = .next t ∧ t.pc = t.sourceValue .q o ∧
      t.memValue .q (s.pushAddr .q) = s.pc ∧ t.reg 7 = s.reg 7 - 8 ∧
      StoredAt (s.pushAddr .q) 8 s t ∧ SameRegsBut (fun k => k = 7) s t ∧ t.flags = s.flags ∧
      t.run = s.run ∧ SameSystem s t ∧ t.draws = s.draws

/-- RET (R181): the 8 bytes of the stack slot are the new `pc`, and RSP is raised by 8. -/
def Obligations.RetResult : Prop :=
  ∀ s : State, s.accessible (s.popAddr .q) 8 →
    ∃ t, exec .ret s = .next t ∧ t.pc = s.memValue .q (s.popAddr .q) ∧
      t.reg 7 = s.reg 7 + 8 ∧ SameRegsBut (fun k => k = 7) s t ∧ t.flags = s.flags ∧
      t.run = s.run ∧ SameMem s t ∧ SameSystem s t ∧ t.draws = s.draws

/-- R185: CALL leaves the return address in the slot RET reads it from: a RET with RSP, memory, modes and
configuration as CALL left them goes back to the instruction after the CALL with RSP as before it. -/
def Obligations.RetReturnsFromCall : Prop :=
  ∀ (s t u : State) (o : Source), s.mem.wf = true → s.run = .running →
    exec (.call o) s = .next t → t.run = .running →
    u.reg 7 = t.reg 7 → u.mem = t.mem → u.cfg = t.cfg → u.amode = t.amode → u.mmodel = t.mmodel →
    ∃ w, exec .ret u = .next w ∧ w.pc = s.pc ∧ w.reg 7 = s.reg 7

/-- JMP (R182): the operand's value is the new `pc`. -/
def Obligations.JmpResult : Prop :=
  ∀ (s : State) (o : Source), s.canRead .q o →
    ∃ t, exec (.jmp o) s = .next t ∧ t.pc = s.sourceValue .q o ∧
      SameRegsBut (fun _ => False) s t ∧ t.flags = s.flags ∧ t.run = s.run ∧ SameMem s t ∧
      SameSystem s t ∧ t.draws = s.draws

/-- JNE (R183): with ZF = 0 the operand's value is the new `pc`, with ZF = 1 `pc` stays after the
instruction. -/
def Obligations.JneResult : Prop :=
  ∀ (s : State) (o : Source), s.canRead .q o →
    ∃ t, exec (.jne o) s = .next t ∧
      (s.flags.ZF = false → t.pc = s.sourceValue .q o) ∧ (s.flags.ZF = true → t.pc = s.pc) ∧
      SameRegsBut (fun _ => False) s t ∧ t.flags = s.flags ∧ t.run = s.run ∧ SameMem s t ∧
      SameSystem s t ∧ t.draws = s.draws

/-! ## Compare -/

/-- CMP (R200, R202): the four result flags from the operands and their difference at the operand width;
no other flag, register or byte changes. -/
def Obligations.CmpResult : Prop :=
  ∀ (s : State) (sz : Size) (a : Dest) (o : Source), s.canRead sz a.asSource → s.canRead sz o →
    ∃ t, exec (.cmp sz a o) s = .next t ∧
      (t.flags.ZF = true ↔ s.sourceValue sz a.asSource = s.sourceValue sz o) ∧
      (t.flags.CF = true ↔
        (s.sourceValue sz a.asSource).toNat < (s.sourceValue sz o).toNat) ∧
      (t.flags.SF = true ↔
        (s.sourceValue sz a.asSource - s.sourceValue sz o).getLsbD (sz.bits - 1) = true) ∧
      (t.flags.OF = true ↔
        (s.sourceValue sz a.asSource - s.sourceValue sz o).getLsbD (sz.bits - 1) ≠
          (s.sourceValue sz a.asSource).getLsbD (sz.bits - 1)) ∧
      SameControlFlags s t ∧ SameRegsBut (fun _ => False) s t ∧ t.pc = s.pc ∧ t.run = s.run ∧
      SameMem s t ∧ SameSystem s t ∧ t.draws = s.draws

/-- R63, R201, R202: a signed value is the unsigned one less 2^N for a set top bit; the difference is modulo
2^N in both views, which differ only in how the flags of CMP describe it: CF that the unsigned difference is
below 0, ZF that either difference is 0, SF and OF the sign of the result and its change. -/
def Obligations.FlagsDescribeTheDifference : Prop :=
  ∀ (n : Nat) (f : Eflags) (va vb : BitVec n),
    (∀ v : BitVec n, signedValue v = (v.toNat : Int) - 2 ^ n * (v.getLsbD (n - 1)).toNat ∧
      -2 ^ n ≤ 2 * signedValue v ∧ 2 * signedValue v < 2 ^ n) ∧
    (va - vb).toNat = (va.toNat + 2 ^ n - vb.toNat) % 2 ^ n ∧
    (∃ q : Int, signedValue (va - vb) = signedValue va - signedValue vb + q * 2 ^ n) ∧
    ((compareFlags f va vb).CF = true ↔ (va.toNat : Int) - vb.toNat < 0) ∧
    ((compareFlags f va vb).ZF = true ↔ (va.toNat : Int) - vb.toNat = 0) ∧
    ((compareFlags f va vb).ZF = true ↔ signedValue va - signedValue vb = 0) ∧
    ((compareFlags f va vb).SF = true ↔ signedValue (va - vb) < 0) ∧
    ((compareFlags f va vb).OF = true ↔ ¬ (signedValue (va - vb) < 0 ↔ signedValue va < 0))

/-! ## Codes, flags and data types -/

/-- R30: the positions of the eight flags in EFLAGS. -/
def Obligations.EflagsPositions : Prop :=
  ∀ f : Eflags, f.toBits.getLsbD 0 = f.CF ∧ f.toBits.getLsbD 1 = f.ZF ∧ f.toBits.getLsbD 2 = f.SF ∧
    f.toBits.getLsbD 3 = f.TF ∧ f.toBits.getLsbD 4 = f.IF ∧ f.toBits.getLsbD 5 = f.OF ∧
    f.toBits.getLsbD 6 = f.ID ∧ f.toBits.getLsbD 7 = f.RF ∧ Eflags.ofBits f.toBits = f

/-- R210, R224, R225: codes 13 to 31 are the reserved ones, 32 to 255 the maskable interrupts, and the
external codes are exactly the maskable ones. -/
def Obligations.CodeRanges : Prop :=
  ∀ c : Code, (codeKind c = .reserved ↔ 13 ≤ c.toNat ∧ c.toNat ≤ 31) ∧
    (codeKind c = .maskable ↔ 32 ≤ c.toNat) ∧
    (codeKind c = .maskable ↔ ∃ n : Fin 224, externalCode n = c)

/-- R65, R74: a far pointer is its 16-bit selector and its 48-bit sub-address. -/
def Obligations.FarPointerSplit : Prop :=
  ∀ a : Word, a.toNat = (segmentOf a).toNat * 2 ^ 48 + (subAddressOf a).toNat
end

