-- ==== Sys2Proof/Laws/Bytes.lean ====
section
/-! SUPPORT. Byte strings and their values: each direction is the inverse of the other. -/

namespace Sys2Proof

@[simp] theorem leBytes_length (n v : Nat) : (leBytes n v).length = n := by
  induction n generalizing v with
  | zero => rfl
  | succ n ih => simp [leBytes, ih]

theorem leValue_lt (bs : List Byte) : leValue bs < 256 ^ bs.length := by
  induction bs with
  | nil => simp [leValue]
  | cons b bs ih =>
    have hb := b.isLt
    simp only [leValue, List.length_cons, Nat.pow_succ]
    omega

theorem leValue_leBytes (n v : Nat) : leValue (leBytes n v) = v % 256 ^ n := by
  induction n generalizing v with
  | zero => simp [leBytes, leValue, Nat.mod_one]
  | succ n ih =>
    simp only [leBytes, leValue, ih, BitVec.toNat_ofNat]
    rw [show 256 ^ (n + 1) = 256 * 256 ^ n from by rw [Nat.pow_succ, Nat.mul_comm], Nat.mod_mul]

theorem leBytes_leValue (bs : List Byte) : leBytes bs.length (leValue bs) = bs := by
  induction bs with
  | nil => rfl
  | cons b bs ih =>
    have hb : b.toNat < 256 := b.isLt
    have hdiv : (b.toNat + 256 * leValue bs) / 256 = leValue bs := by omega
    simp only [leValue, List.length_cons, leBytes, hdiv, ih, List.cons.injEq, and_true]
    apply BitVec.eq_of_toNat_eq
    simp only [BitVec.toNat_ofNat]
    omega

/-- Byte `k` of a value is bits `8*k+7 .. 8*k` (R68). -/
theorem leBytes_getElem (n v k : Nat) (h : k < (leBytes n v).length) :
    (leBytes n v)[k] = BitVec.ofNat 8 (v / 256 ^ k) := by
  induction n generalizing v k with
  | zero => simp [leBytes] at h
  | succ n ih =>
    cases k with
    | zero => simp [leBytes]
    | succ k =>
      simp only [leBytes, List.getElem_cons_succ]
      rw [ih, Nat.div_div_eq_div_mul, Nat.pow_succ, Nat.mul_comm 256]

@[simp] theorem orderBytes_length (bo : ByteOrder) (bs : List Byte) :
    (orderBytes bo bs).length = bs.length := by
  cases bo <;> simp [orderBytes]

@[simp] theorem orderBytes_orderBytes (bo : ByteOrder) (bs : List Byte) :
    orderBytes bo (orderBytes bo bs) = bs := by
  cases bo <;> simp [orderBytes]

@[simp] theorem valueBytes_length (bo : ByteOrder) (n v : Nat) : (valueBytes bo n v).length = n := by
  simp [valueBytes]

theorem bytesValue_lt (bo : ByteOrder) (bs : List Byte) : bytesValue bo bs < 256 ^ bs.length := by
  have h := leValue_lt (orderBytes bo bs)
  simpa [bytesValue] using h

theorem bytesValue_valueBytes (bo : ByteOrder) (n v : Nat) :
    bytesValue bo (valueBytes bo n v) = v % 256 ^ n := by
  simp [bytesValue, valueBytes, leValue_leBytes]

theorem valueBytes_bytesValue (bo : ByteOrder) (bs : List Byte) :
    valueBytes bo bs.length (bytesValue bo bs) = bs := by
  have h := leBytes_leValue (orderBytes bo bs)
  rw [orderBytes_length] at h
  simp [bytesValue, valueBytes, h]

theorem pow_bytes_eq (sz : Size) : 256 ^ sz.bytes = 2 ^ sz.bits := by cases sz <;> rfl

/-- A value of `8*S` bits survives being laid out in `S` bytes (R68). -/
theorem ofNat_bytesValue_valueBytes (bo : ByteOrder) (sz : Size) (v : BitVec sz.bits) :
    BitVec.ofNat sz.bits (bytesValue bo (valueBytes bo sz.bytes v.toNat)) = v := by
  rw [bytesValue_valueBytes, pow_bytes_eq, Nat.mod_eq_of_lt v.isLt, BitVec.ofNat_toNat]
  simp

end Sys2Proof
end

