-- ==== Sys2Proof/Laws/Codec.lean ====
section
/-! SUPPORT. The reference codec: each part of an encoding decodes to what it encodes, each part that
decodes is the encoding of what it decodes to, and bytes after an answer do not change it. -/

namespace Sys2Proof

/-! ### Opcodes and size prefixes -/

theorem opcode_ofByte_byte (op : Opcode) : Opcode.ofByte op.byte = some op := by
  cases op <;> decide

theorem opcode_byte_of_ofByte {b : Byte} {op : Opcode} (h : Opcode.ofByte b = some op) :
    op.byte = b := by
  have h2 := List.find?_some h
  simpa using h2

theorem sizeOfPrefix_opcode (op : Opcode) : sizeOfPrefix op.byte = none := by
  cases op <;> decide

/-- A size-prefix byte is the encoding of its size. -/
theorem encodeSize_of_sizeOfPrefix {b : Byte} {sz : Size} (h : sizeOfPrefix b = some sz) :
    encodeSize sz = [b] ∧ sz ≠ .q := by
  unfold sizeOfPrefix at h
  split at h
  · next hb => cases h; subst hb; exact ⟨rfl, by decide⟩
  · split at h
    · next hb => cases h; subst hb; exact ⟨rfl, by decide⟩
    · split at h
      · next hb => cases h; subst hb; exact ⟨rfl, by decide⟩
      · cases h

/-! ### Payloads and operands -/

theorem decodePayload_valueBytes (bo : ByteOrder) (n v : Nat) (rest : List Byte) :
    decodePayload bo n (valueBytes bo n v ++ rest) = .ok (BitVec.ofNat 64 (v % 256 ^ n), rest) := by
  unfold decodePayload
  have hlen : ¬ (valueBytes bo n v ++ rest).length < n := by simp
  have htake : (valueBytes bo n v ++ rest).take n = valueBytes bo n v :=
    List.take_left' (valueBytes_length bo n v)
  have hdrop : (valueBytes bo n v ++ rest).drop n = rest :=
    List.drop_left' (valueBytes_length bo n v)
  rw [if_neg hlen, htake, hdrop, bytesValue_valueBytes]

/-- A decoded payload is its value's bytes, and the value fits in them. -/
theorem decodePayload_ok {bo : ByteOrder} {n : Nat} {bs rest : List Byte} {v : Word} (hn : n ≤ 8)
    (h : decodePayload bo n bs = .ok (v, rest)) :
    bs = valueBytes bo n v.toNat ++ rest ∧ v.toNat < 256 ^ n := by
  unfold decodePayload at h
  split at h
  · cases h
  · next hlen =>
    cases h
    have hl : (bs.take n).length = n := by simp; omega
    have hlt := bytesValue_lt bo (bs.take n)
    rw [hl] at hlt
    have hp : 256 ^ n ≤ 256 ^ 8 := Nat.pow_le_pow_right (by decide) hn
    have hv : (BitVec.ofNat 64 (bytesValue bo (bs.take n))).toNat = bytesValue bo (bs.take n) := by
      rw [BitVec.toNat_ofNat]
      exact Nat.mod_eq_of_lt (by omega)
    rw [hv]
    refine ⟨?_, hlt⟩
    have hb := valueBytes_bytesValue bo (bs.take n)
    rw [hl] at hb
    rw [hb, List.take_append_drop]

theorem decodePayload_append {bo : ByteOrder} {n : Nat} {bs more : List Byte}
    {r : Parsed Word} (h : decodePayload bo n bs = r) (hr : r ≠ .error .needMore) :
    decodePayload bo n (bs ++ more) = r.map fun p => (p.1, p.2 ++ more) := by
  subst h
  unfold decodePayload at hr ⊢
  split at hr
  · exact absurd rfl hr
  · next hlen =>
    have h2 : ¬ (bs ++ more).length < n := by simp; omega
    rw [if_neg h2, if_neg hlen, List.take_append_of_le_length (by omega),
      List.drop_append_of_le_length (by omega)]
    rfl

theorem decodeSource_encodeSource (bo : ByteOrder) (sz : Size) {o : Source}
    (h : o.fits sz = true) (rest : List Byte) :
    decodeSource bo sz (encodeSource bo sz o ++ rest) = .ok (o, rest) := by
  cases o with
  | reg r =>
    have hr : (BitVec.ofNat 8 r.val).toNat = r.val := by
      rw [BitVec.toNat_ofNat]; exact Nat.mod_eq_of_lt (by omega)
    simp [encodeSource, decodeSource, hr]
  | imm v =>
    simp only [Source.fits, decide_eq_true_eq] at h
    have hv : v.toNat % 256 ^ sz.bytes = v.toNat := by
      rw [pow_bytes_eq]; exact Nat.mod_eq_of_lt h
    simp only [encodeSource, List.cons_append, decodeSource, decodePayload_valueBytes, hv]
    simp
  | mem a =>
    have hv : a.toNat % 256 ^ 8 = a.toNat := Nat.mod_eq_of_lt a.isLt
    simp only [encodeSource, List.cons_append, decodeSource, decodePayload_valueBytes, hv]
    simp

/-- A decoded operand fits its size and is encoded by the bytes it was read from. -/
theorem decodeSource_ok {bo : ByteOrder} {sz : Size} {bs rest : List Byte} {o : Source}
    (h : decodeSource bo sz bs = .ok (o, rest)) :
    bs = encodeSource bo sz o ++ rest ∧ o.fits sz = true := by
  cases bs with
  | nil => cases h
  | cons b bs =>
    simp only [decodeSource] at h
    split at h
    · next hb =>
      cases h
      refine ⟨?_, rfl⟩
      simp [encodeSource]
    · split at h
      · next hb =>
        subst hb
        split at h
        · next v r hp =>
          cases h
          obtain ⟨rfl, hlt⟩ := decodePayload_ok (by cases sz <;> decide) hp
          rw [pow_bytes_eq] at hlt
          exact ⟨rfl, by simpa [Source.fits] using hlt⟩
        · cases h
      · split at h
        · next hb =>
          subst hb
          split at h
          · next v r hp =>
            cases h
            obtain ⟨rfl, -⟩ := decodePayload_ok (by decide) hp
            exact ⟨rfl, rfl⟩
          · cases h
        · cases h

theorem decodeSource_append {bo : ByteOrder} {sz : Size} {bs more : List Byte}
    {r : Parsed Source} (h : decodeSource bo sz bs = r) (hr : r ≠ .error .needMore) :
    decodeSource bo sz (bs ++ more) = r.map fun p => (p.1, p.2 ++ more) := by
  subst h
  cases bs with
  | nil => exact absurd rfl hr
  | cons b bs =>
    simp only [decodeSource, List.cons_append] at hr ⊢
    split
    · rfl
    · next h1 =>
      simp only [h1, dite_false] at hr
      split
      · next h2 =>
        simp only [h2, if_true] at hr
        cases hp : decodePayload bo sz.bytes bs with
        | ok p =>
          rw [decodePayload_append hp (by simp)]
          rfl
        | error e =>
          rw [hp] at hr
          rw [decodePayload_append hp (by simpa using hr)]
          rfl
      · next h2 =>
        simp only [h2, if_false] at hr
        split
        · next h3 =>
          simp only [h3, if_true] at hr
          cases hp : decodePayload bo 8 bs with
          | ok p =>
            rw [decodePayload_append hp (by simp)]
            rfl
          | error e =>
            rw [hp] at hr
            rw [decodePayload_append hp (by simpa using hr)]
            rfl
        · rfl

theorem decodeDest_encodeSource (bo : ByteOrder) (sz : Size) (d : Dest) (rest : List Byte) :
    decodeDest bo sz (encodeSource bo sz d.asSource ++ rest) = .ok (d, rest) := by
  cases d <;> simp [decodeDest, Dest.asSource, decodeSource_encodeSource bo sz (o := .reg _) rfl,
    decodeSource_encodeSource bo sz (o := .mem _) rfl]

theorem decodeDest_ok {bo : ByteOrder} {sz : Size} {bs rest : List Byte} {d : Dest}
    (h : decodeDest bo sz bs = .ok (d, rest)) : bs = encodeSource bo sz d.asSource ++ rest := by
  unfold decodeDest at h
  split at h
  · next hs => cases h; exact (decodeSource_ok hs).1
  · next hs => cases h; exact (decodeSource_ok hs).1
  · cases h
  · cases h

theorem decodeDest_append {bo : ByteOrder} {sz : Size} {bs more : List Byte} {r : Parsed Dest}
    (h : decodeDest bo sz bs = r) (hr : r ≠ .error .needMore) :
    decodeDest bo sz (bs ++ more) = r.map fun p => (p.1, p.2 ++ more) := by
  subst h
  unfold decodeDest at hr ⊢
  cases hs : decodeSource bo sz bs with
  | ok p =>
    obtain ⟨o, rest⟩ := p
    rw [decodeSource_append hs (by simp)]
    cases o <;> rfl
  | error e =>
    rw [hs] at hr
    rw [decodeSource_append hs (by simpa using hr)]
    rfl

/-! ### Formats -/

theorem decodeF1_append {bo : ByteOrder} {sz : Size} {mk : Source → Instr} {bs more : List Byte}
    {r : Parsed Instr} (h : decodeF1 bo sz mk bs = r) (hr : r ≠ .error .needMore) :
    decodeF1 bo sz mk (bs ++ more) = r.map fun p => (p.1, p.2 ++ more) := by
  subst h
  unfold decodeF1 at hr ⊢
  cases hs : decodeSource bo sz bs with
  | ok p => rw [decodeSource_append hs (by simp)]; rfl
  | error e =>
    rw [hs] at hr
    rw [decodeSource_append hs (by simpa using hr)]
    rfl

theorem decodeF1Dest_append {bo : ByteOrder} {sz : Size} {mk : Dest → Instr} {bs more : List Byte}
    {r : Parsed Instr} (h : decodeF1Dest bo sz mk bs = r) (hr : r ≠ .error .needMore) :
    decodeF1Dest bo sz mk (bs ++ more) = r.map fun p => (p.1, p.2 ++ more) := by
  subst h
  unfold decodeF1Dest at hr ⊢
  cases hs : decodeDest bo sz bs with
  | ok p => rw [decodeDest_append hs (by simp)]; rfl
  | error e =>
    rw [hs] at hr
    rw [decodeDest_append hs (by simpa using hr)]
    rfl

theorem decodeF2_append {bo : ByteOrder} {sz : Size} {mk : Dest → Source → Instr}
    {bs more : List Byte} {r : Parsed Instr} (h : decodeF2 bo sz mk bs = r)
    (hr : r ≠ .error .needMore) :
    decodeF2 bo sz mk (bs ++ more) = r.map fun p => (p.1, p.2 ++ more) := by
  subst h
  unfold decodeF2 at hr ⊢
  cases hs : decodeDest bo sz bs with
  | ok p =>
    rw [hs] at hr
    rw [decodeDest_append hs (by simp)]
    exact decodeF1_append rfl hr
  | error e =>
    rw [hs] at hr
    rw [decodeDest_append hs (by simpa using hr)]
    rfl

theorem decodeOperands_append {bo : ByteOrder} {sz : Size} {op : Opcode} {bs more : List Byte}
    {r : Parsed Instr} (h : decodeOperands bo sz op bs = r) (hr : r ≠ .error .needMore) :
    decodeOperands bo sz op (bs ++ more) = r.map fun p => (p.1, p.2 ++ more) := by
  subst h
  cases op <;> first
    | rfl
    | exact decodeF1_append rfl hr
    | exact decodeF1Dest_append rfl hr
    | exact decodeF2_append rfl hr

theorem decodeHead_append {bs more : List Byte} {r : Parsed (Option Size × Byte)}
    (h : decodeHead bs = r) (hr : r ≠ .error .needMore) :
    decodeHead (bs ++ more) = r.map fun p => (p.1, p.2 ++ more) := by
  subst h
  cases bs with
  | nil => exact absurd rfl hr
  | cons b bs =>
    simp only [decodeHead, List.cons_append] at hr ⊢
    cases hp : sizeOfPrefix b with
    | none => rfl
    | some sz =>
      simp only [hp] at hr
      cases bs with
      | nil => exact absurd rfl hr
      | cons c bs => rfl

/-- Once the bytes give an answer, more bytes after them do not change it (R113: no later byte changes
the meaning of an earlier one). -/
theorem decodeRest_append {bo : ByteOrder} {bs more : List Byte} {r : Parsed Instr}
    (h : decodeRest bo bs = r) (hr : r ≠ .error .needMore) :
    decodeRest bo (bs ++ more) = r.map fun p => (p.1, p.2 ++ more) := by
  subst h
  unfold decodeRest at hr ⊢
  cases hs : decodeHead bs with
  | error e =>
    rw [hs] at hr
    rw [decodeHead_append hs (by simpa using hr)]
    rfl
  | ok p =>
    obtain ⟨⟨pre, b⟩, rest⟩ := p
    rw [hs] at hr
    rw [decodeHead_append hs (by simp)]
    simp only [Except.map] at hr ⊢
    cases ho : Opcode.ofByte b with
    | none => rfl
    | some op =>
      simp only [ho] at hr
      by_cases hp : (pre.isSome && !op.takesSizePrefix) = true
      · simp only [hp, if_true]
      · simp only [hp] at hr ⊢
        exact decodeOperands_append rfl hr

/-- The same for `decode`: an instruction keeps its length, an error stays the error it is. -/
theorem decode_append_ok {bo : ByteOrder} {bs : List Byte} {i : Instr} {n : Nat}
    (h : decode bo bs = .ok (i, n)) (more : List Byte) : decode bo (bs ++ more) = .ok (i, n) := by
  unfold decode at h ⊢
  cases hs : decodeRest bo bs with
  | error e => rw [hs] at h; cases h
  | ok p =>
    rw [hs] at h
    cases h
    rw [decodeRest_append hs (by simp)]
    simp only [Except.map, List.length_append]
    congr 2
    omega

theorem decode_append_error {bo : ByteOrder} {bs : List Byte} {e : DecodeError}
    (h : decode bo bs = .error e) (he : e ≠ .needMore) (more : List Byte) :
    decode bo (bs ++ more) = .error e := by
  unfold decode at h ⊢
  cases hs : decodeRest bo bs with
  | ok p => rw [hs] at h; cases h
  | error e' =>
    rw [hs] at h
    cases h
    rw [decodeRest_append hs (by simpa using he)]
    rfl

/-! ### Lengths -/

theorem encodeSource_length (bo : ByteOrder) (sz : Size) (o : Source) :
    (encodeSource bo sz o).length = o.length sz := by
  cases o <;> simp [encodeSource, Source.length, Nat.add_comm]

theorem Source.length_le (sz : Size) (o : Source) : o.length sz ≤ 9 := by
  cases o <;> cases sz <;> simp only [Source.length, Size.bytes] <;> omega

theorem encodeSize_length_le (sz : Size) : (encodeSize sz).length ≤ 1 := by
  cases sz <;> simp [encodeSize]

/-- No instruction is longer than 20 bytes (R113). -/
theorem encode_length_le (bo : ByteOrder) (i : Instr) : (encode bo i).length ≤ maxInstrLength := by
  cases i with
  | mov sz d o =>
    have h1 := encodeSize_length_le sz
    have h2 := Source.length_le sz d.asSource
    have h3 := Source.length_le sz o
    simp only [encode, List.length_append, List.length_cons, encodeSource_length, maxInstrLength]
    omega
  | cmp sz d o =>
    have h1 := encodeSize_length_le sz
    have h2 := Source.length_le sz d.asSource
    have h3 := Source.length_le sz o
    simp only [encode, List.length_append, List.length_cons, encodeSource_length, maxInstrLength]
    omega
  | push sz o =>
    have h1 := encodeSize_length_le sz
    have h3 := Source.length_le sz o
    simp only [encode, List.length_append, List.length_cons, encodeSource_length, maxInstrLength]
    omega
  | pop sz d =>
    have h1 := encodeSize_length_le sz
    have h2 := Source.length_le sz d.asSource
    simp only [encode, List.length_append, List.length_cons, encodeSource_length, maxInstrLength]
    omega
  | int o | call o | jmp o | jne o =>
    have h3 := Source.length_le .q o
    simp only [encode, List.length_cons, encodeSource_length, maxInstrLength]
    omega
  | nop | ud | hlt | cpuid | ret | sysexit | brk => simp [encode, maxInstrLength]

/-! ### Wanting more bytes -/

theorem decodePayload_needMore {bo : ByteOrder} {n : Nat} {bs : List Byte} {e : DecodeError}
    (h : decodePayload bo n bs = .error e) : bs.length < n := by
  unfold decodePayload at h
  split at h
  · assumption
  · cases h

theorem decodeSource_needMore {bo : ByteOrder} {sz : Size} {bs : List Byte}
    (h : decodeSource bo sz bs = .error .needMore) : bs.length < 9 := by
  have hsz : sz.bytes ≤ 8 := by cases sz <;> decide
  cases bs with
  | nil => simp
  | cons b bs =>
    simp only [decodeSource] at h
    split at h
    · cases h
    · split at h
      · split at h
        · cases h
        · next hp =>
          have := decodePayload_needMore hp
          simp only [List.length_cons]; omega
      · split at h
        · split at h
          · cases h
          · next hp =>
            have := decodePayload_needMore hp
            simp only [List.length_cons]; omega
        · cases h

theorem decodeDest_needMore {bo : ByteOrder} {sz : Size} {bs : List Byte}
    (h : decodeDest bo sz bs = .error .needMore) : bs.length < 9 := by
  unfold decodeDest at h
  split at h
  · cases h
  · cases h
  · cases h
  · next hs => cases h; exact decodeSource_needMore hs

theorem decodeF1_needMore {bo : ByteOrder} {sz : Size} {mk : Source → Instr} {bs : List Byte}
    (h : decodeF1 bo sz mk bs = .error .needMore) : bs.length < 9 := by
  unfold decodeF1 at h
  split at h
  · cases h
  · next hs => cases h; exact decodeSource_needMore hs

theorem decodeF1Dest_needMore {bo : ByteOrder} {sz : Size} {mk : Dest → Instr} {bs : List Byte}
    (h : decodeF1Dest bo sz mk bs = .error .needMore) : bs.length < 9 := by
  unfold decodeF1Dest at h
  split at h
  · cases h
  · next hs => cases h; exact decodeDest_needMore hs

theorem decodeF2_needMore {bo : ByteOrder} {sz : Size} {mk : Dest → Source → Instr}
    {bs : List Byte} (h : decodeF2 bo sz mk bs = .error .needMore) : bs.length < 18 := by
  unfold decodeF2 at h
  split at h
  · next d rest hs =>
    have h1 := decodeF1_needMore h
    have h2 := Source.length_le sz d.asSource
    rw [decodeDest_ok hs, List.length_append, encodeSource_length]
    omega
  · next hs => cases h; have := decodeDest_needMore hs; omega

theorem decodeOperands_needMore {bo : ByteOrder} {sz : Size} {op : Opcode} {bs : List Byte}
    (h : decodeOperands bo sz op bs = .error .needMore) : bs.length < 18 := by
  cases op with
  | nop | ud | hlt | cpuid | ret | sysexit | brk => cases h
  | int | call | jmp | jne | push => have := decodeF1_needMore h; omega
  | pop => have := decodeF1Dest_needMore h; omega
  | mov | cmp => exact decodeF2_needMore h

theorem decodeHead_length {bs rest : List Byte} {p : Option Size × Byte}
    (h : decodeHead bs = .ok (p, rest)) : bs.length ≤ rest.length + 2 := by
  cases bs with
  | nil => cases h
  | cons b bs =>
    simp only [decodeHead] at h
    split at h
    · cases h; simp
    · cases bs with
      | nil => cases h
      | cons c bs => cases h; simp

/-- Twenty bytes always give an answer (R113). -/
theorem decode_needMore_length {bo : ByteOrder} {bs : List Byte}
    (h : decode bo bs = .error .needMore) : bs.length < maxInstrLength := by
  unfold decode at h
  split at h
  · cases h
  · next hr =>
    cases h
    unfold decodeRest at hr
    split at hr
    · next hh =>
      cases hr
      cases bs with
      | nil => decide
      | cons b bs =>
        cases bs with
        | nil => simp [maxInstrLength]
        | cons c bs =>
          simp only [decodeHead] at hh
          split at hh <;> cases hh
    · next hh =>
      have h1 := decodeHead_length hh
      split at hr
      · cases hr
      · split at hr
        · cases hr
        · have h2 := decodeOperands_needMore hr
          simp only [maxInstrLength]; omega

end Sys2Proof
end

