-- ==== Sys2Proof/Laws/Memory.lean ====
section
/-! SUPPORT. Memory: a read after a write, every other address, and the canonical form, which every
memory operation keeps. -/

namespace Sys2Proof.Machine

/-! ### The canonical form -/

theorem Memory.wfAbove_mono {lo lo' : Nat} {m : Memory} (hle : lo' ≤ lo)
    (h : Memory.wfAbove lo m = true) : Memory.wfAbove lo' m = true := by
  cases m with
  | nil => rfl
  | cons c m =>
    obtain ⟨a, v⟩ := c
    simp only [Memory.wfAbove, Bool.and_eq_true, decide_eq_true_eq] at h ⊢
    exact ⟨⟨by omega, h.1.2⟩, h.2⟩

/-- Below the canonical form's lower end nothing is listed. -/
theorem Memory.read_below {lo : Nat} {m : Memory} (h : Memory.wfAbove lo m = true) {k : Nat}
    (hk : k < lo) : Memory.read m k = Config.unlistedByte := by
  induction m generalizing lo with
  | nil => rfl
  | cons c m ih =>
    obtain ⟨a, v⟩ := c
    simp only [Memory.wfAbove, Bool.and_eq_true, decide_eq_true_eq] at h
    have hne : k ≠ a := by omega
    simp only [Memory.read, hne, if_false]
    exact ih h.2 (by omega)

theorem Memory.wfAbove_cons {lo a : Nat} {v : Byte} {m : Memory} (hlo : lo ≤ a)
    (h : Memory.wfAbove (a + 1) m = true) : Memory.wfAbove lo (Memory.cons a v m) = true := by
  unfold Memory.cons
  split
  · exact Memory.wfAbove_mono (by omega) h
  · next hv =>
    simp only [Memory.wfAbove, Bool.and_eq_true, decide_eq_true_eq]
    exact ⟨⟨hlo, hv⟩, h⟩

theorem Memory.wfAbove_write {lo a : Nat} {v : Byte} {m : Memory} (hlo : lo ≤ a)
    (h : Memory.wfAbove lo m = true) : Memory.wfAbove lo (Memory.write m a v) = true := by
  induction m generalizing lo with
  | nil => exact Memory.wfAbove_cons hlo rfl
  | cons c m ih =>
    obtain ⟨b, w⟩ := c
    have hbw := h
    simp only [Memory.wfAbove, Bool.and_eq_true, decide_eq_true_eq] at h
    simp only [Memory.write]
    split
    · refine Memory.wfAbove_cons hlo ?_
      simp only [Memory.wfAbove, Bool.and_eq_true, decide_eq_true_eq]
      exact ⟨⟨by omega, h.1.2⟩, h.2⟩
    · split
      · next hab => exact Memory.wfAbove_cons hlo (hab ▸ h.2)
      · simp only [Memory.wfAbove, Bool.and_eq_true, decide_eq_true_eq]
        exact ⟨h.1, ih (by omega) h.2⟩

/-- Storing a byte keeps the canonical form. -/
theorem Memory.wf_write {m : Memory} (h : m.wf = true) (a : Nat) (v : Byte) :
    (m.write a v).wf = true :=
  Memory.wfAbove_write (Nat.zero_le a) h

/-- Storing bytes keeps the canonical form. -/
theorem Memory.wf_writeBytes {m : Memory} (h : m.wf = true) (a : Nat) (bs : List Byte) :
    (m.writeBytes a bs).wf = true := by
  induction bs generalizing m a with
  | nil => exact h
  | cons b bs ih => exact ih (Memory.wf_write h a b) (a + 1)

theorem Memory.inSpace_write {m : Memory} (h : m.inSpace = true) {a : Nat} (ha : a < 2 ^ 64)
    (v : Byte) : (m.write a v).inSpace = true := by
  have hc : ∀ {l : Memory}, l.inSpace = true → (Memory.cons a v l).inSpace = true := by
    intro l hl
    unfold Memory.cons
    split
    · exact hl
    · simp only [Memory.inSpace, List.all_cons, Bool.and_eq_true, decide_eq_true_eq] at hl ⊢
      exact ⟨ha, hl⟩
  induction m with
  | nil => exact hc rfl
  | cons c m ih =>
    obtain ⟨b, w⟩ := c
    have hm : Memory.inSpace m = true := by
      simp only [Memory.inSpace, List.all_cons, Bool.and_eq_true] at h ⊢
      exact h.2
    have hb : b < 2 ^ 64 := by
      simp only [Memory.inSpace, List.all_cons, Bool.and_eq_true, decide_eq_true_eq] at h
      exact h.1
    simp only [Memory.write]
    split
    · exact hc h
    · split
      · exact hc hm
      · have h2 := ih hm
        simp only [Memory.inSpace, List.all_cons, Bool.and_eq_true, decide_eq_true_eq] at h2 ⊢
        exact ⟨hb, h2⟩

/-- Storing bytes below 2^64 lists no address outside the space. -/
theorem Memory.inSpace_writeBytes {m : Memory} (h : m.inSpace = true) {a : Nat} {bs : List Byte}
    (ha : a + bs.length ≤ 2 ^ 64) : (m.writeBytes a bs).inSpace = true := by
  induction bs generalizing m a with
  | nil => exact h
  | cons b bs ih =>
    simp only [List.length_cons] at ha
    exact ih (Memory.inSpace_write h (by omega) b) (by omega)

/-! ### Read after write -/

theorem Memory.read_cons_same {lo a : Nat} {v : Byte} {m : Memory}
    (h : Memory.wfAbove lo m = true) (hlo : a < lo) : Memory.read (Memory.cons a v m) a = v := by
  unfold Memory.cons
  split
  · next hv => rw [Memory.read_below h hlo, hv]
  · simp [Memory.read]

theorem Memory.read_cons_ne {a k : Nat} (v : Byte) (m : Memory) (h : k ≠ a) :
    Memory.read (Memory.cons a v m) k = Memory.read m k := by
  unfold Memory.cons
  split
  · rfl
  · simp [Memory.read, h]

theorem Memory.read_write_same {m : Memory} (h : m.wf = true) (a : Nat) (v : Byte) :
    (m.write a v).read a = v := by
  suffices hs : ∀ lo, Memory.wfAbove lo m = true → (m.write a v).read a = v from hs 0 h
  clear h
  induction m with
  | nil => intro lo h; exact Memory.read_cons_same (lo := a + 1) rfl (by omega)
  | cons c m ih =>
    intro lo h
    obtain ⟨b, w⟩ := c
    simp only [Memory.wfAbove, Bool.and_eq_true, decide_eq_true_eq] at h
    simp only [Memory.write]
    split
    · next hab =>
      refine Memory.read_cons_same (lo := b) ?_ hab
      simp only [Memory.wfAbove, Bool.and_eq_true, decide_eq_true_eq]
      exact ⟨⟨Nat.le_refl b, h.1.2⟩, h.2⟩
    · split
      · next hab => exact Memory.read_cons_same h.2 (by omega)
      · next hab =>
        simp only [Memory.read, hab, if_false]
        exact ih (b + 1) h.2

theorem Memory.read_write_ne (m : Memory) {a k : Nat} (v : Byte) (hk : k ≠ a) :
    (m.write a v).read k = m.read k := by
  induction m with
  | nil => exact Memory.read_cons_ne v [] hk
  | cons c m ih =>
    obtain ⟨b, w⟩ := c
    simp only [Memory.write]
    split
    · exact Memory.read_cons_ne v _ hk
    · split
      · next hab => rw [Memory.read_cons_ne v m hk]; simp [Memory.read, hab ▸ hk]
      · simp [Memory.read, ih]

theorem Memory.read_writeBytes_out (m : Memory) {a k : Nat} {bs : List Byte}
    (hk : ¬ (a ≤ k ∧ k < a + bs.length)) : (m.writeBytes a bs).read k = m.read k := by
  induction bs generalizing m a with
  | nil => rfl
  | cons b bs ih =>
    simp only [List.length_cons] at hk
    simp only [Memory.writeBytes]
    rw [ih _ (by omega), Memory.read_write_ne m b (by omega)]

theorem Memory.read_writeBytes_in {m : Memory} (h : m.wf = true) {a k : Nat} {bs : List Byte}
    (hk : k < bs.length) : (m.writeBytes a bs).read (a + k) = bs[k] := by
  induction bs generalizing m a k with
  | nil => simp at hk
  | cons b bs ih =>
    simp only [Memory.writeBytes]
    cases k with
    | zero =>
      rw [Memory.read_writeBytes_out _ (by omega)]
      simpa using Memory.read_write_same h a b
    | succ k =>
      have h2 := ih (Memory.wf_write h a b) (a := a + 1) (k := k) (by simpa using hk)
      simp only [List.getElem_cons_succ]
      rw [← h2]
      congr 1
      omega

@[simp] theorem Memory.readBytes_length (m : Memory) (a n : Nat) :
    (m.readBytes a n).length = n := by
  induction n generalizing a with
  | zero => rfl
  | succ n ih => simp [Memory.readBytes, ih]

theorem Memory.readBytes_getElem (m : Memory) (a n k : Nat) (h : k < (m.readBytes a n).length) :
    (m.readBytes a n)[k] = m.read (a + k) := by
  induction n generalizing a k with
  | zero => simp [Memory.readBytes] at h
  | succ n ih =>
    cases k with
    | zero => simp [Memory.readBytes]
    | succ k =>
      simp only [Memory.readBytes, List.getElem_cons_succ]
      rw [ih]
      congr 1
      omega

theorem Memory.readBytes_congr {m m' : Memory} {a n : Nat}
    (h : ∀ k, a ≤ k → k < a + n → m'.read k = m.read k) : m'.readBytes a n = m.readBytes a n := by
  apply List.ext_getElem (by simp)
  intro k h1 h2
  rw [Memory.readBytes_getElem, Memory.readBytes_getElem]
  simp at h1
  exact h _ (by omega) (by omega)

/-- What was stored is read back (R68, R77). -/
theorem Memory.readBytes_writeBytes {m : Memory} (h : m.wf = true) (a : Nat) (bs : List Byte) :
    (m.writeBytes a bs).readBytes a bs.length = bs := by
  apply List.ext_getElem (by simp)
  intro k h1 h2
  rw [Memory.readBytes_getElem, Memory.read_writeBytes_in h h2]

/-! ### Address sets -/

theorem mem_addrInsert {a k : Nat} {l : List Nat} : k ∈ addrInsert a l ↔ k = a ∨ k ∈ l := by
  induction l with
  | nil => simp [addrInsert]
  | cons b l ih =>
    simp only [addrInsert]
    split
    · simp
    · split
      · next h => subst h; simp
      · simp only [List.mem_cons, ih]
        tauto

theorem mem_addrInsertRange {a n k : Nat} {l : List Nat} :
    k ∈ addrInsertRange a n l ↔ (a ≤ k ∧ k < a + n) ∨ k ∈ l := by
  induction n generalizing a l with
  | zero => simp [addrInsertRange]
  | succ n ih =>
    simp only [addrInsertRange, ih, mem_addrInsert]
    constructor
    · rintro (h | h | h)
      · exact .inl (by omega)
      · exact .inl (by omega)
      · exact .inr h
    · rintro (h | h)
      · by_cases hk : k = a
        · exact .inr (.inl hk)
        · exact .inl (by omega)
      · exact .inr (.inr h)

theorem addrRisingAbove_mono {lo lo' : Nat} {l : List Nat} (hle : lo' ≤ lo)
    (h : addrRisingAbove lo l = true) : addrRisingAbove lo' l = true := by
  cases l with
  | nil => rfl
  | cons a l =>
    simp only [addrRisingAbove, Bool.and_eq_true, decide_eq_true_eq] at h ⊢
    exact ⟨by omega, h.2⟩

theorem addrRisingAbove_insert {lo a : Nat} {l : List Nat} (hlo : lo ≤ a)
    (h : addrRisingAbove lo l = true) : addrRisingAbove lo (addrInsert a l) = true := by
  induction l generalizing lo with
  | nil => simpa [addrInsert, addrRisingAbove] using hlo
  | cons b l ih =>
    have hb := h
    simp only [addrRisingAbove, Bool.and_eq_true, decide_eq_true_eq] at h
    simp only [addrInsert]
    split
    · simp only [addrRisingAbove, Bool.and_eq_true, decide_eq_true_eq]
      exact ⟨hlo, by omega, h.2⟩
    · split
      · exact hb
      · simp only [addrRisingAbove, Bool.and_eq_true, decide_eq_true_eq]
        exact ⟨h.1, ih (by omega) h.2⟩

/-- Recording stored addresses keeps the list strictly rising. -/
theorem addrRising_insertRange {l : List Nat} (h : addrRising l = true) (a n : Nat) :
    addrRising (addrInsertRange a n l) = true := by
  induction n generalizing a l with
  | zero => exact h
  | succ n ih => exact ih (addrRisingAbove_insert (Nat.zero_le a) h) (a + 1)

theorem addrRisingAbove_filter {lo : Nat} {l : List Nat} (p : Nat → Bool)
    (h : addrRisingAbove lo l = true) : addrRisingAbove lo (l.filter p) = true := by
  induction l generalizing lo with
  | nil => rfl
  | cons a l ih =>
    simp only [addrRisingAbove, Bool.and_eq_true, decide_eq_true_eq] at h
    simp only [List.filter_cons]
    split
    · simp only [addrRisingAbove, Bool.and_eq_true, decide_eq_true_eq]
      exact ⟨h.1, ih h.2⟩
    · exact addrRisingAbove_mono (by omega) (ih h.2)

end Sys2Proof.Machine
end

