-- ==== Sys2Proof/Laws/State.lean ====
section
/-! SUPPORT. One lemma per field per named state update, each true by `rfl`, and the register view of each
update. -/

namespace Sys2Proof.Machine

/-! ### setReg -/

@[simp] theorem State.setReg_x (s : State) (r : Reg) (v : Word) :
    (s.setReg r v).x = s.x.set r.val v r.isLt := rfl
@[simp] theorem State.setReg_pc (s : State) (r : Reg) (v : Word) :
    (s.setReg r v).pc = s.pc := rfl
@[simp] theorem State.setReg_seg (s : State) (r : Reg) (v : Word) :
    (s.setReg r v).seg = s.seg := rfl
@[simp] theorem State.setReg_flags (s : State) (r : Reg) (v : Word) :
    (s.setReg r v).flags = s.flags := rfl
@[simp] theorem State.setReg_amode (s : State) (r : Reg) (v : Word) :
    (s.setReg r v).amode = s.amode := rfl
@[simp] theorem State.setReg_mmodel (s : State) (r : Reg) (v : Word) :
    (s.setReg r v).mmodel = s.mmodel := rfl
@[simp] theorem State.setReg_run (s : State) (r : Reg) (v : Word) :
    (s.setReg r v).run = s.run := rfl
@[simp] theorem State.setReg_mem (s : State) (r : Reg) (v : Word) :
    (s.setReg r v).mem = s.mem := rfl
@[simp] theorem State.setReg_cfg (s : State) (r : Reg) (v : Word) :
    (s.setReg r v).cfg = s.cfg := rfl
@[simp] theorem State.setReg_instrAt (s : State) (r : Reg) (v : Word) :
    (s.setReg r v).instrAt = s.instrAt := rfl
@[simp] theorem State.setReg_written (s : State) (r : Reg) (v : Word) :
    (s.setReg r v).written = s.written := rfl
@[simp] theorem State.setReg_inputs (s : State) (r : Reg) (v : Word) :
    (s.setReg r v).inputs = s.inputs := rfl
@[simp] theorem State.setReg_draws (s : State) (r : Reg) (v : Word) :
    (s.setReg r v).draws = s.draws := rfl
@[simp] theorem State.setReg_byteAt (s : State) (r : Reg) (v : Word) (k : Nat) :
    (s.setReg r v).byteAt k = s.byteAt k := rfl

/-! ### setPc -/

@[simp] theorem State.setPc_x (s : State) (a : Word) :
    (s.setPc a).x = s.x := rfl
@[simp] theorem State.setPc_pc (s : State) (a : Word) :
    (s.setPc a).pc = a := rfl
@[simp] theorem State.setPc_seg (s : State) (a : Word) :
    (s.setPc a).seg = s.seg := rfl
@[simp] theorem State.setPc_flags (s : State) (a : Word) :
    (s.setPc a).flags = s.flags := rfl
@[simp] theorem State.setPc_amode (s : State) (a : Word) :
    (s.setPc a).amode = s.amode := rfl
@[simp] theorem State.setPc_mmodel (s : State) (a : Word) :
    (s.setPc a).mmodel = s.mmodel := rfl
@[simp] theorem State.setPc_run (s : State) (a : Word) :
    (s.setPc a).run = s.run := rfl
@[simp] theorem State.setPc_mem (s : State) (a : Word) :
    (s.setPc a).mem = s.mem := rfl
@[simp] theorem State.setPc_cfg (s : State) (a : Word) :
    (s.setPc a).cfg = s.cfg := rfl
@[simp] theorem State.setPc_instrAt (s : State) (a : Word) :
    (s.setPc a).instrAt = s.instrAt := rfl
@[simp] theorem State.setPc_written (s : State) (a : Word) :
    (s.setPc a).written = s.written := rfl
@[simp] theorem State.setPc_inputs (s : State) (a : Word) :
    (s.setPc a).inputs = s.inputs := rfl
@[simp] theorem State.setPc_draws (s : State) (a : Word) :
    (s.setPc a).draws = s.draws := rfl
@[simp] theorem State.setPc_reg (s : State) (a : Word) (k : Reg) :
    (s.setPc a).reg k = s.reg k := rfl
@[simp] theorem State.setPc_byteAt (s : State) (a : Word) (k : Nat) :
    (s.setPc a).byteAt k = s.byteAt k := rfl

/-! ### setFlags -/

@[simp] theorem State.setFlags_x (s : State) (f : Eflags) :
    (s.setFlags f).x = s.x := rfl
@[simp] theorem State.setFlags_pc (s : State) (f : Eflags) :
    (s.setFlags f).pc = s.pc := rfl
@[simp] theorem State.setFlags_seg (s : State) (f : Eflags) :
    (s.setFlags f).seg = s.seg := rfl
@[simp] theorem State.setFlags_flags (s : State) (f : Eflags) :
    (s.setFlags f).flags = f := rfl
@[simp] theorem State.setFlags_amode (s : State) (f : Eflags) :
    (s.setFlags f).amode = s.amode := rfl
@[simp] theorem State.setFlags_mmodel (s : State) (f : Eflags) :
    (s.setFlags f).mmodel = s.mmodel := rfl
@[simp] theorem State.setFlags_run (s : State) (f : Eflags) :
    (s.setFlags f).run = s.run := rfl
@[simp] theorem State.setFlags_mem (s : State) (f : Eflags) :
    (s.setFlags f).mem = s.mem := rfl
@[simp] theorem State.setFlags_cfg (s : State) (f : Eflags) :
    (s.setFlags f).cfg = s.cfg := rfl
@[simp] theorem State.setFlags_instrAt (s : State) (f : Eflags) :
    (s.setFlags f).instrAt = s.instrAt := rfl
@[simp] theorem State.setFlags_written (s : State) (f : Eflags) :
    (s.setFlags f).written = s.written := rfl
@[simp] theorem State.setFlags_inputs (s : State) (f : Eflags) :
    (s.setFlags f).inputs = s.inputs := rfl
@[simp] theorem State.setFlags_draws (s : State) (f : Eflags) :
    (s.setFlags f).draws = s.draws := rfl
@[simp] theorem State.setFlags_reg (s : State) (f : Eflags) (k : Reg) :
    (s.setFlags f).reg k = s.reg k := rfl
@[simp] theorem State.setFlags_byteAt (s : State) (f : Eflags) (k : Nat) :
    (s.setFlags f).byteAt k = s.byteAt k := rfl

/-! ### setRun -/

@[simp] theorem State.setRun_x (s : State) (r : RunState) :
    (s.setRun r).x = s.x := rfl
@[simp] theorem State.setRun_pc (s : State) (r : RunState) :
    (s.setRun r).pc = s.pc := rfl
@[simp] theorem State.setRun_seg (s : State) (r : RunState) :
    (s.setRun r).seg = s.seg := rfl
@[simp] theorem State.setRun_flags (s : State) (r : RunState) :
    (s.setRun r).flags = s.flags := rfl
@[simp] theorem State.setRun_amode (s : State) (r : RunState) :
    (s.setRun r).amode = s.amode := rfl
@[simp] theorem State.setRun_mmodel (s : State) (r : RunState) :
    (s.setRun r).mmodel = s.mmodel := rfl
@[simp] theorem State.setRun_run (s : State) (r : RunState) :
    (s.setRun r).run = r := rfl
@[simp] theorem State.setRun_mem (s : State) (r : RunState) :
    (s.setRun r).mem = s.mem := rfl
@[simp] theorem State.setRun_cfg (s : State) (r : RunState) :
    (s.setRun r).cfg = s.cfg := rfl
@[simp] theorem State.setRun_instrAt (s : State) (r : RunState) :
    (s.setRun r).instrAt = s.instrAt := rfl
@[simp] theorem State.setRun_written (s : State) (r : RunState) :
    (s.setRun r).written = s.written := rfl
@[simp] theorem State.setRun_inputs (s : State) (r : RunState) :
    (s.setRun r).inputs = s.inputs := rfl
@[simp] theorem State.setRun_draws (s : State) (r : RunState) :
    (s.setRun r).draws = s.draws := rfl
@[simp] theorem State.setRun_reg (s : State) (r : RunState) (k : Reg) :
    (s.setRun r).reg k = s.reg k := rfl
@[simp] theorem State.setRun_byteAt (s : State) (r : RunState) (k : Nat) :
    (s.setRun r).byteAt k = s.byteAt k := rfl

/-! ### storeBytes -/

@[simp] theorem State.storeBytes_x (s : State) (a : Word) (bs : List Byte) :
    (s.storeBytes a bs).x = s.x := rfl
@[simp] theorem State.storeBytes_pc (s : State) (a : Word) (bs : List Byte) :
    (s.storeBytes a bs).pc = s.pc := rfl
@[simp] theorem State.storeBytes_seg (s : State) (a : Word) (bs : List Byte) :
    (s.storeBytes a bs).seg = s.seg := rfl
@[simp] theorem State.storeBytes_flags (s : State) (a : Word) (bs : List Byte) :
    (s.storeBytes a bs).flags = s.flags := rfl
@[simp] theorem State.storeBytes_amode (s : State) (a : Word) (bs : List Byte) :
    (s.storeBytes a bs).amode = s.amode := rfl
@[simp] theorem State.storeBytes_mmodel (s : State) (a : Word) (bs : List Byte) :
    (s.storeBytes a bs).mmodel = s.mmodel := rfl
@[simp] theorem State.storeBytes_run (s : State) (a : Word) (bs : List Byte) :
    (s.storeBytes a bs).run = s.run := rfl
@[simp] theorem State.storeBytes_mem (s : State) (a : Word) (bs : List Byte) :
    (s.storeBytes a bs).mem = s.mem.writeBytes a.toNat bs := rfl
@[simp] theorem State.storeBytes_cfg (s : State) (a : Word) (bs : List Byte) :
    (s.storeBytes a bs).cfg = s.cfg := rfl
@[simp] theorem State.storeBytes_instrAt (s : State) (a : Word) (bs : List Byte) :
    (s.storeBytes a bs).instrAt = s.instrAt := rfl
@[simp] theorem State.storeBytes_written (s : State) (a : Word) (bs : List Byte) :
    (s.storeBytes a bs).written = addrInsertRange a.toNat bs.length s.written := rfl
@[simp] theorem State.storeBytes_inputs (s : State) (a : Word) (bs : List Byte) :
    (s.storeBytes a bs).inputs = s.inputs := rfl
@[simp] theorem State.storeBytes_draws (s : State) (a : Word) (bs : List Byte) :
    (s.storeBytes a bs).draws = s.draws := rfl
@[simp] theorem State.storeBytes_reg (s : State) (a : Word) (bs : List Byte) (k : Reg) :
    (s.storeBytes a bs).reg k = s.reg k := rfl

/-! ### countDraw -/

@[simp] theorem State.countDraw_x (s : State) :
    (s.countDraw).x = s.x := rfl
@[simp] theorem State.countDraw_pc (s : State) :
    (s.countDraw).pc = s.pc := rfl
@[simp] theorem State.countDraw_seg (s : State) :
    (s.countDraw).seg = s.seg := rfl
@[simp] theorem State.countDraw_flags (s : State) :
    (s.countDraw).flags = s.flags := rfl
@[simp] theorem State.countDraw_amode (s : State) :
    (s.countDraw).amode = s.amode := rfl
@[simp] theorem State.countDraw_mmodel (s : State) :
    (s.countDraw).mmodel = s.mmodel := rfl
@[simp] theorem State.countDraw_run (s : State) :
    (s.countDraw).run = s.run := rfl
@[simp] theorem State.countDraw_mem (s : State) :
    (s.countDraw).mem = s.mem := rfl
@[simp] theorem State.countDraw_cfg (s : State) :
    (s.countDraw).cfg = s.cfg := rfl
@[simp] theorem State.countDraw_instrAt (s : State) :
    (s.countDraw).instrAt = s.instrAt := rfl
@[simp] theorem State.countDraw_written (s : State) :
    (s.countDraw).written = s.written := rfl
@[simp] theorem State.countDraw_inputs (s : State) :
    (s.countDraw).inputs = s.inputs := rfl
@[simp] theorem State.countDraw_draws (s : State) :
    (s.countDraw).draws = s.draws + 1 := rfl
@[simp] theorem State.countDraw_reg (s : State) (k : Reg) :
    (s.countDraw).reg k = s.reg k := rfl
@[simp] theorem State.countDraw_byteAt (s : State) (k : Nat) :
    (s.countDraw).byteAt k = s.byteAt k := rfl

/-! ### passBoundary -/

@[simp] theorem State.passBoundary_x (s : State) :
    (s.passBoundary).x = s.x := rfl
@[simp] theorem State.passBoundary_pc (s : State) :
    (s.passBoundary).pc = s.pc := rfl
@[simp] theorem State.passBoundary_seg (s : State) :
    (s.passBoundary).seg = s.seg := rfl
@[simp] theorem State.passBoundary_flags (s : State) :
    (s.passBoundary).flags = s.flags := rfl
@[simp] theorem State.passBoundary_amode (s : State) :
    (s.passBoundary).amode = s.amode := rfl
@[simp] theorem State.passBoundary_mmodel (s : State) :
    (s.passBoundary).mmodel = s.mmodel := rfl
@[simp] theorem State.passBoundary_run (s : State) :
    (s.passBoundary).run = s.run := rfl
@[simp] theorem State.passBoundary_mem (s : State) :
    (s.passBoundary).mem = s.mem := rfl
@[simp] theorem State.passBoundary_cfg (s : State) :
    (s.passBoundary).cfg = s.cfg := rfl
@[simp] theorem State.passBoundary_instrAt (s : State) :
    (s.passBoundary).instrAt = s.instrAt := rfl
@[simp] theorem State.passBoundary_written (s : State) :
    (s.passBoundary).written = s.written := rfl
@[simp] theorem State.passBoundary_inputs (s : State) :
    (s.passBoundary).inputs = s.inputs.tail := rfl
@[simp] theorem State.passBoundary_draws (s : State) :
    (s.passBoundary).draws = s.draws := rfl
@[simp] theorem State.passBoundary_reg (s : State) (k : Reg) :
    (s.passBoundary).reg k = s.reg k := rfl
@[simp] theorem State.passBoundary_byteAt (s : State) (k : Nat) :
    (s.passBoundary).byteAt k = s.byteAt k := rfl

/-! ### beginInstr -/

@[simp] theorem State.beginInstr_x (s : State) :
    (s.beginInstr).x = s.x := rfl
@[simp] theorem State.beginInstr_pc (s : State) :
    (s.beginInstr).pc = s.pc := rfl
@[simp] theorem State.beginInstr_seg (s : State) :
    (s.beginInstr).seg = s.seg := rfl
@[simp] theorem State.beginInstr_flags (s : State) :
    (s.beginInstr).flags = s.flags := rfl
@[simp] theorem State.beginInstr_amode (s : State) :
    (s.beginInstr).amode = s.amode := rfl
@[simp] theorem State.beginInstr_mmodel (s : State) :
    (s.beginInstr).mmodel = s.mmodel := rfl
@[simp] theorem State.beginInstr_run (s : State) :
    (s.beginInstr).run = s.run := rfl
@[simp] theorem State.beginInstr_mem (s : State) :
    (s.beginInstr).mem = s.mem := rfl
@[simp] theorem State.beginInstr_cfg (s : State) :
    (s.beginInstr).cfg = s.cfg := rfl
@[simp] theorem State.beginInstr_instrAt (s : State) :
    (s.beginInstr).instrAt = s.pc := rfl
@[simp] theorem State.beginInstr_written (s : State) :
    (s.beginInstr).written = s.written := rfl
@[simp] theorem State.beginInstr_inputs (s : State) :
    (s.beginInstr).inputs = s.inputs := rfl
@[simp] theorem State.beginInstr_draws (s : State) :
    (s.beginInstr).draws = s.draws := rfl
@[simp] theorem State.beginInstr_reg (s : State) (k : Reg) :
    (s.beginInstr).reg k = s.reg k := rfl
@[simp] theorem State.beginInstr_byteAt (s : State) (k : Nat) :
    (s.beginInstr).byteAt k = s.byteAt k := rfl

/-! ### advance -/

@[simp] theorem State.advance_x (s : State) (n : Nat) :
    (s.advance n).x = s.x := rfl
@[simp] theorem State.advance_pc (s : State) (n : Nat) :
    (s.advance n).pc = s.pc + BitVec.ofNat 64 n := rfl
@[simp] theorem State.advance_seg (s : State) (n : Nat) :
    (s.advance n).seg = s.seg := rfl
@[simp] theorem State.advance_flags (s : State) (n : Nat) :
    (s.advance n).flags = s.flags := rfl
@[simp] theorem State.advance_amode (s : State) (n : Nat) :
    (s.advance n).amode = s.amode := rfl
@[simp] theorem State.advance_mmodel (s : State) (n : Nat) :
    (s.advance n).mmodel = s.mmodel := rfl
@[simp] theorem State.advance_run (s : State) (n : Nat) :
    (s.advance n).run = s.run := rfl
@[simp] theorem State.advance_mem (s : State) (n : Nat) :
    (s.advance n).mem = s.mem := rfl
@[simp] theorem State.advance_cfg (s : State) (n : Nat) :
    (s.advance n).cfg = s.cfg := rfl
@[simp] theorem State.advance_instrAt (s : State) (n : Nat) :
    (s.advance n).instrAt = s.instrAt := rfl
@[simp] theorem State.advance_written (s : State) (n : Nat) :
    (s.advance n).written = s.written := rfl
@[simp] theorem State.advance_inputs (s : State) (n : Nat) :
    (s.advance n).inputs = s.inputs := rfl
@[simp] theorem State.advance_draws (s : State) (n : Nat) :
    (s.advance n).draws = s.draws := rfl
@[simp] theorem State.advance_reg (s : State) (n : Nat) (k : Reg) :
    (s.advance n).reg k = s.reg k := rfl
@[simp] theorem State.advance_byteAt (s : State) (n : Nat) (k : Nat) :
    (s.advance n).byteAt k = s.byteAt k := rfl

/-! ### placeBytes -/

@[simp] theorem State.placeBytes_x (s : State) (a : Word) (bs : List Byte) :
    (s.placeBytes a bs).x = s.x := rfl
@[simp] theorem State.placeBytes_pc (s : State) (a : Word) (bs : List Byte) :
    (s.placeBytes a bs).pc = s.pc := rfl
@[simp] theorem State.placeBytes_seg (s : State) (a : Word) (bs : List Byte) :
    (s.placeBytes a bs).seg = s.seg := rfl
@[simp] theorem State.placeBytes_flags (s : State) (a : Word) (bs : List Byte) :
    (s.placeBytes a bs).flags = s.flags := rfl
@[simp] theorem State.placeBytes_amode (s : State) (a : Word) (bs : List Byte) :
    (s.placeBytes a bs).amode = s.amode := rfl
@[simp] theorem State.placeBytes_mmodel (s : State) (a : Word) (bs : List Byte) :
    (s.placeBytes a bs).mmodel = s.mmodel := rfl
@[simp] theorem State.placeBytes_run (s : State) (a : Word) (bs : List Byte) :
    (s.placeBytes a bs).run = s.run := rfl
@[simp] theorem State.placeBytes_mem (s : State) (a : Word) (bs : List Byte) :
    (s.placeBytes a bs).mem = s.mem.writeBytes a.toNat (bs.take (2 ^ 64 - a.toNat)) := rfl
@[simp] theorem State.placeBytes_cfg (s : State) (a : Word) (bs : List Byte) :
    (s.placeBytes a bs).cfg = s.cfg := rfl
@[simp] theorem State.placeBytes_instrAt (s : State) (a : Word) (bs : List Byte) :
    (s.placeBytes a bs).instrAt = s.instrAt := rfl
@[simp] theorem State.placeBytes_written (s : State) (a : Word) (bs : List Byte) :
    (s.placeBytes a bs).written = s.written.filter fun k => !inSpan a.toNat bs.length k := rfl
@[simp] theorem State.placeBytes_inputs (s : State) (a : Word) (bs : List Byte) :
    (s.placeBytes a bs).inputs = s.inputs := rfl
@[simp] theorem State.placeBytes_draws (s : State) (a : Word) (bs : List Byte) :
    (s.placeBytes a bs).draws = s.draws := rfl
@[simp] theorem State.placeBytes_reg (s : State) (a : Word) (bs : List Byte) (k : Reg) :
    (s.placeBytes a bs).reg k = s.reg k := rfl

/-! ### Registers -/

@[simp] theorem State.setReg_reg_same (s : State) (r : Reg) (v : Word) :
    (s.setReg r v).reg r = v := by
  simp [State.reg]

@[simp] theorem State.setReg_reg_ne (s : State) {r k : Reg} (v : Word) (h : k ≠ r) :
    (s.setReg r v).reg k = s.reg k := by
  have h' : r.val ≠ k.val := fun e => h (Fin.ext e.symm)
  simp [State.reg, Vector.getElem_set_ne, h']

theorem State.setReg_reg (s : State) (r k : Reg) (v : Word) :
    (s.setReg r v).reg k = if k = r then v else s.reg k := by
  by_cases h : k = r
  · subst h; simp
  · simp [h]

/-- Two register files that agree on every register are equal. -/
theorem State.x_ext {s t : State} (h : ∀ r, t.reg r = s.reg r) : t.x = s.x := by
  apply Vector.ext
  intro i hi
  exact h ⟨i, hi⟩

/-- Writing back the value a register holds changes nothing. -/
@[simp] theorem State.setReg_reg_self (s : State) (r : Reg) : s.setReg r (s.reg r) = s := by
  have h : (s.setReg r (s.reg r)).x = s.x :=
    State.x_ext fun k => by rw [State.setReg_reg]; split <;> simp_all
  simp only [State.setReg] at h ⊢
  rw [h]

end Sys2Proof.Machine
end

