-- ==== Sys2Proof/Laws/Ops.lean ====
section
/-! SUPPORT. One lemma per shared operation that says once all it can answer; later proofs cite these and
unfold no operation. -/

namespace Sys2Proof.Machine

/-! ### The check of R68 -/

theorem allFrom_eq_true (p : Nat → Bool) (a n : Nat) :
    allFrom p a n = true ↔ ∀ k, k < n → p (a + k) = true := by
  induction n generalizing a with
  | zero => simp [allFrom]
  | succ n ih =>
    simp only [allFrom, Bool.and_eq_true, ih]
    constructor
    · rintro ⟨h0, h⟩ k hk
      cases k with
      | zero => exact h0
      | succ k => simpa [Nat.add_comm, Nat.add_left_comm] using h k (by omega)
    · intro h
      refine ⟨by simpa using h 0 (by omega), fun k hk => ?_⟩
      have h2 := h (k + 1) (by omega)
      rwa [show a + (k + 1) = a + 1 + k from by omega] at h2

theorem allFrom_eq_false (p : Nat → Bool) (a n : Nat) :
    allFrom p a n = false ↔ ∃ k, k < n ∧ p (a + k) = false := by
  rw [← Bool.not_eq_true, allFrom_eq_true]
  simp

/-- The check passes exactly for an accessible range. -/
theorem check_ok_iff (s : State) (a : Word) (n : Nat) (u : Unit) :
    s.check a n = .ok u ↔ s.accessible a n := by
  unfold State.check State.accessible
  have hr := allFrom_eq_true (fun k => !s.isReserved k) a.toNat n
  have hp := allFrom_eq_true s.isPresent a.toNat n
  constructor
  · intro h
    split at h
    · cases h
    · next h1 =>
      split at h
      · cases h
      · next h2 =>
        rw [not_or, not_not, not_not] at h2
        split at h
        · cases h
        · next h3 =>
          split at h
          · cases h
          · next h4 =>
            rw [Bool.not_eq_false] at h3 h4
            exact ⟨by omega, h2.1, h2.2, fun k hk =>
              ⟨by simpa using hr.1 h3 k hk, hp.1 h4 k hk⟩⟩
  · rintro ⟨h1, h2, h3, h4⟩
    have hr' := hr.2 fun k hk => by simp [(h4 k hk).1]
    have hp' := hp.2 fun k hk => (h4 k hk).2
    simp only [h2, h3, hr', hp', Nat.not_lt.2 h1]
    simp

theorem check_of_accessible {s : State} {a : Word} {n : Nat} (h : s.accessible a n) :
    s.check a n = .ok () := (check_ok_iff s a n ()).2 h

/-- The only code a check raises is Protection Exception, for a reserved byte in a modelled mode
(R76). -/
theorem check_raise_iff (s : State) (a : Word) (n : Nat) (c : Code) :
    s.check a n = .error (.raise c) ↔
      c = Code.protection ∧ a.toNat + n ≤ 2 ^ 64 ∧ s.amode = .direct ∧ s.mmodel = .flat ∧
        ∃ k, k < n ∧ s.isReserved (a.toNat + k) = true := by
  unfold State.check
  have hr := allFrom_eq_false (fun k => !s.isReserved k) a.toNat n
  simp only [Bool.not_eq_false'] at hr
  constructor
  · intro h
    split at h
    · cases h
    · next h1 =>
      split at h
      · cases h
      · next h2 =>
        rw [not_or, not_not, not_not] at h2
        split at h
        · next h3 => cases h; exact ⟨rfl, by omega, h2.1, h2.2, hr.1 h3⟩
        · split at h <;> cases h
  · rintro ⟨rfl, h1, h2, h3, h4⟩
    have hr' := hr.2 h4
    simp only [h2, h3, hr', Nat.not_lt.2 h1]
    simp

theorem check_congr {s t : State} (hc : t.cfg = s.cfg) (ha : t.amode = s.amode)
    (hm : t.mmodel = s.mmodel) (a : Word) (n : Nat) : t.check a n = s.check a n := by
  have hp : t.isPresent = s.isPresent := by funext k; simp [State.isPresent, hc]
  have hr : t.isReserved = s.isReserved := by funext k; simp [State.isReserved, hc]
  unfold State.check
  rw [hp, hr, ha, hm]

theorem accessible_congr {s t : State} (hc : t.cfg = s.cfg) (ha : t.amode = s.amode)
    (hm : t.mmodel = s.mmodel) (a : Word) (n : Nat) : t.accessible a n ↔ s.accessible a n := by
  simp [State.accessible, State.isReserved, State.isPresent, hc, ha, hm]

/-! ### Register views (R22, R23) -/

theorem mergeLow_getLsbD (sz : Size) (upper : Word) (v : BitVec sz.bits) (k : Nat) (hk : k < 64) :
    (mergeLow sz upper v).getLsbD k = if k < sz.bits then v.getLsbD k else upper.getLsbD k := by
  have hv : ¬ k < sz.bits → v.getLsbD k = false := fun h => BitVec.getLsbD_of_ge v k (by omega)
  by_cases h : k < sz.bits
  · simp [mergeLow, h, hk]
  · simp [mergeLow, h, hk, hv h, show sz.bits + (k - sz.bits) = k from by omega]

/-- A register write touches the register and the count of draws, nothing else. -/
theorem writeView_eq (s : State) (sz : Size) (r : Reg) (v : BitVec sz.bits) :
    ∃ w n, s.writeView sz r v = { s.setReg r w with draws := n } ∧ n = drawsAfter s sz ∧
      NarrowResult s.cfg.narrowWrite (Config.freeUpper s.draws) sz (s.reg r) v w := by
  unfold State.writeView drawsAfter
  split
  · next h =>
    subst h
    refine ⟨_, s.draws, rfl, by simp, fun k hk => ?_⟩
    simp [hk]
  · next h =>
    have hm : ∀ u, NarrowResult .preserve 0 sz u v (mergeLow sz u v) :=
      fun u k hk => mergeLow_getLsbD sz u v k hk
    cases hn : s.cfg.narrowWrite with
    | preserve =>
      exact ⟨_, s.draws, rfl, by simp, fun k hk => mergeLow_getLsbD sz _ v k hk⟩
    | zero32 =>
      by_cases hd : sz = .d
      · subst hd
        refine ⟨_, s.draws, by simp only [if_true]; rfl, by simp, fun k hk => ?_⟩
        by_cases hk' : k < Size.d.bits
        · simp [hk, hk']
        · have hz : v.getLsbD k = false := BitVec.getLsbD_of_ge v k (by omega)
          simp [hk, hk', hz]
      · refine ⟨_, s.draws, by simp only [hd, if_false]; rfl, by simp, fun k hk => ?_⟩
        rw [mergeLow_getLsbD sz _ v k hk]
        simp [hd]
    | havoc =>
      refine ⟨_, s.draws + 1, rfl, by simp [h], fun k hk => ?_⟩
      rw [mergeLow_getLsbD sz _ v k hk]

/-! ### Memory -/

theorem memRead_ok_iff (s : State) (sz : Size) (a : Word) (v : BitVec sz.bits) :
    s.memRead sz a = .ok v ↔ s.accessible a sz.bytes ∧ v = s.memValue sz a := by
  unfold State.memRead State.memValue
  rw [← check_ok_iff s a sz.bytes ()]
  cases s.check a sz.bytes with
  | ok u => simp [eq_comm]
  | error e => simp

theorem memRead_error_iff (s : State) (sz : Size) (a : Word) (e : Stop) :
    s.memRead sz a = .error e ↔ s.check a sz.bytes = .error e := by
  unfold State.memRead
  cases s.check a sz.bytes <;> simp

theorem memWrite_ok_iff (s : State) (sz : Size) (a : Word) (v : BitVec sz.bits) (t : State) :
    s.memWrite sz a v = .ok t ↔ s.accessible a sz.bytes ∧
      t = s.storeBytes a (valueBytes s.cfg.byteOrder sz.bytes v.toNat) := by
  unfold State.memWrite
  rw [← check_ok_iff s a sz.bytes ()]
  cases s.check a sz.bytes with
  | ok u => simp [eq_comm]
  | error e => simp

theorem memWrite_error_iff (s : State) (sz : Size) (a : Word) (v : BitVec sz.bits) (e : Stop) :
    s.memWrite sz a v = .error e ↔ s.check a sz.bytes = .error e := by
  unfold State.memWrite
  cases s.check a sz.bytes <;> simp

theorem memValue_congr {s t : State} (hm : t.mem = s.mem) (hc : t.cfg = s.cfg) (sz : Size)
    (a : Word) : t.memValue sz a = s.memValue sz a := by simp [State.memValue, hm, hc]

/-- What a store left is what a read of it gives (R68, R77). -/
theorem memValue_storeBytes {s : State} (hw : s.mem.wf = true) (sz : Size) (a : Word)
    (v : BitVec sz.bits) :
    (s.storeBytes a (valueBytes s.cfg.byteOrder sz.bytes v.toNat)).memValue sz a = v := by
  have h := Memory.readBytes_writeBytes hw a.toNat (valueBytes s.cfg.byteOrder sz.bytes v.toNat)
  rw [valueBytes_length] at h
  simp only [State.memValue, State.storeBytes_mem, State.storeBytes_cfg, h]
  exact ofNat_bytesValue_valueBytes _ _ _

theorem storeBytes_byteAt_out (s : State) (a : Word) (bs : List Byte) {k : Nat}
    (hk : ¬ (a.toNat ≤ k ∧ k < a.toNat + bs.length)) :
    (s.storeBytes a bs).byteAt k = s.byteAt k :=
  Memory.read_writeBytes_out s.mem hk

/-- A store leaves every other byte alone. -/
theorem sameMemBut_storeBytes (s : State) (a : Word) (bs : List Byte) :
    SameMemBut a bs.length s (s.storeBytes a bs) := fun _ hk => storeBytes_byteAt_out s a bs hk

/-! ### Operands -/

theorem source_ok_iff (s : State) (sz : Size) (o : Source) (v : BitVec sz.bits) :
    s.source sz o = .ok v ↔ s.canRead sz o ∧ v = s.sourceValue sz o := by
  cases o with
  | reg r => simp [State.source, State.canRead, State.sourceValue, State.readView, eq_comm]
  | imm w => simp [State.source, State.canRead, State.sourceValue, eq_comm]
  | mem a => exact memRead_ok_iff s sz a v

theorem source_of_canRead {s : State} {sz : Size} {o : Source} (h : s.canRead sz o) :
    s.source sz o = .ok (s.sourceValue sz o) := (source_ok_iff s sz o _).2 ⟨h, rfl⟩

/-- A source operand stops an instruction only by the check of its memory access. -/
theorem source_error_iff (s : State) (sz : Size) (o : Source) (e : Stop) :
    s.source sz o = .error e ↔ ∃ a, o = .mem a ∧ s.check a sz.bytes = .error e := by
  cases o with
  | reg r => simp [State.source]
  | imm w => simp [State.source]
  | mem a => simp [State.source, memRead_error_iff]

theorem push_ok_iff (s : State) (sz : Size) (v : BitVec sz.bits) (t : State) :
    s.push sz v = .ok t ↔ s.accessible (s.pushAddr sz) sz.bytes ∧
      t = (s.storeBytes (s.pushAddr sz) (valueBytes s.cfg.byteOrder sz.bytes v.toNat)).setReg
        Reg.rsp (s.sp - BitVec.ofNat 64 sz.bytes) := by
  unfold State.push
  cases h : s.memWrite sz (s.pushAddr sz) v with
  | ok u =>
    obtain ⟨ha, rfl⟩ := (memWrite_ok_iff _ _ _ _ _).1 h
    simp [ha, eq_comm]
  | error e =>
    have hn : ¬ s.accessible (s.pushAddr sz) sz.bytes := fun ha => by
      rw [(memWrite_ok_iff _ _ _ _ _).2 ⟨ha, rfl⟩] at h; cases h
    simp [hn]

theorem push_error_iff (s : State) (sz : Size) (v : BitVec sz.bits) (e : Stop) :
    s.push sz v = .error e ↔ s.check (s.pushAddr sz) sz.bytes = .error e := by
  rw [← memWrite_error_iff s sz _ v e]
  unfold State.push
  cases s.memWrite sz (s.pushAddr sz) v <;> simp

theorem pop_ok_iff (s : State) (sz : Size) (v : BitVec sz.bits) (t : State) :
    s.pop sz = .ok (v, t) ↔ s.accessible (s.popAddr sz) sz.bytes ∧
      v = s.memValue sz (s.popAddr sz) ∧
      t = s.setReg Reg.rsp (s.sp + BitVec.ofNat 64 sz.bytes) := by
  unfold State.pop
  cases h : s.memRead sz (s.popAddr sz) with
  | ok u =>
    obtain ⟨ha, rfl⟩ := (memRead_ok_iff _ _ _ _).1 h
    simp [ha, eq_comm]
  | error e =>
    have hn : ¬ s.accessible (s.popAddr sz) sz.bytes := fun ha => by
      rw [(memRead_ok_iff _ _ _ _).2 ⟨ha, rfl⟩] at h; cases h
    simp [hn]

theorem pop_error_iff (s : State) (sz : Size) (e : Stop) :
    s.pop sz = .error e ↔ s.check (s.popAddr sz) sz.bytes = .error e := by
  rw [← memRead_error_iff s sz _ e]
  unfold State.pop
  cases s.memRead sz (s.popAddr sz) <;> simp

/-- The register writes of CPUID touch registers only; each register ends with its last write
(R144). -/
theorem applyWrites_eq (s : State) (ws : List (Reg × Word)) :
    ∃ x, s.applyWrites ws = { s with x := x } ∧ ∀ r,
      (s.applyWrites ws).reg r = ws.foldl (fun v w => if w.1 = r then w.2 else v) (s.reg r) := by
  induction ws generalizing s with
  | nil => exact ⟨s.x, rfl, fun r => rfl⟩
  | cons w ws ih =>
    obtain ⟨k, v⟩ := w
    obtain ⟨x, hx, hr⟩ := ih (s.setReg k v)
    refine ⟨x, hx, fun r => ?_⟩
    simp only [State.applyWrites, List.foldl_cons, hr]
    congr 1
    rw [State.setReg_reg]
    simp only [eq_comm]

/-! ### Traps and completion -/

theorem takeTrap_eq (s : State) (c : Code) (origin next : Word) :
    takeTrap s c origin next = .next ((s.setPc next).setRun (.trapped ⟨c, origin, next⟩)) := rfl

/-- Taking a trap changes `pc` and the run state, nothing else (R232). -/
theorem trapTaken (s : State) (c : Code) (origin next : Word) :
    TrapTaken s c origin next ((s.setPc next).setRun (.trapped ⟨c, origin, next⟩)) :=
  ⟨rfl, rfl, fun _ _ => rfl, rfl, ⟨fun _ => rfl, rfl⟩, ⟨rfl, rfl, rfl, rfl, rfl, rfl⟩, rfl⟩

/-- A completed rule is its next state or the trap it raised, in the state it started from. -/
theorem complete_next_iff (s t : State) (r : Res State) :
    complete s r = .next t ↔ r = .ok t ∨ ∃ c, r = .error (.raise c) ∧
      t = (s.setPc s.pc).setRun (.trapped ⟨c, s.instrAt, s.pc⟩) := by
  cases r with
  | ok u => simp [complete]
  | error e =>
    cases e with
    | raise c => simp [complete, takeTrap_eq, eq_comm]
    | fault f => simp [complete]
    | refuse r => simp [complete]

end Sys2Proof.Machine
end

