-- ==== Sys2Proof/Laws/Exec.lean ====
section
/-! SUPPORT. What an instruction can do, said once: the state a meaning answers (`exec…_next`), and for all
instructions together the state they never write, the one store they make, and how they change the run
state. -/

namespace Sys2Proof.Machine

/-! ### Effects -/

/-- The state no instruction writes is the same in both. -/
def SameFixed (s t : State) : Prop := SameSystem s t ∧ SameControlFlags s t

theorem sameFixed_refl (s : State) : SameFixed s s :=
  ⟨⟨rfl, rfl, rfl, rfl, rfl, rfl⟩, ⟨rfl, rfl, rfl, rfl⟩⟩

theorem SameFixed.trans {s t u : State} (h : SameFixed s t) (h' : SameFixed t u) :
    SameFixed s u := by
  obtain ⟨⟨h1, h2, h3, h4, h5, h6⟩, h7, h8, h9, h10⟩ := h
  obtain ⟨⟨k1, k2, k3, k4, k5, k6⟩, k7, k8, k9, k10⟩ := h'
  exact ⟨⟨k1.trans h1, k2.trans h2, k3.trans h3, k4.trans h4, k5.trans h5, k6.trans h6⟩,
    k7.trans h7, k8.trans h8, k9.trans h9, k10.trans h10⟩

/-- What an instruction does to memory: nothing, or one store of bytes in accessible memory. -/
def MemEffect (s t : State) : Prop :=
  (t.mem = s.mem ∧ t.written = s.written) ∨
    ∃ a bs, s.accessible a bs.length ∧ t.mem = s.mem.writeBytes a.toNat bs ∧
      t.written = addrInsertRange a.toNat bs.length s.written

theorem memEffect_same {s t : State} (hm : t.mem = s.mem) (hw : t.written = s.written) :
    MemEffect s t := .inl ⟨hm, hw⟩

/-- A register write changes no memory and no state that no instruction writes. -/
theorem writeView_fixed (s : State) (sz : Size) (r : Reg) (v : BitVec sz.bits) :
    SameFixed s (s.writeView sz r v) ∧ (s.writeView sz r v).mem = s.mem ∧
      (s.writeView sz r v).written = s.written ∧ (s.writeView sz r v).pc = s.pc ∧
      (s.writeView sz r v).flags = s.flags ∧ (s.writeView sz r v).run = s.run ∧
      ∀ k, k ≠ r → (s.writeView sz r v).reg k = s.reg k := by
  obtain ⟨w, n, hw, -, -⟩ := writeView_eq s sz r v
  rw [hw]
  exact ⟨⟨⟨rfl, rfl, rfl, rfl, rfl, rfl⟩, rfl, rfl, rfl, rfl⟩, rfl, rfl, rfl, rfl, rfl,
    fun k hk => State.setReg_reg_ne s w hk⟩

/-- A check that raises raises Protection Exception, and some address is reserved (R76). -/
theorem check_raise_reserved {s : State} {a : Word} {n : Nat} {c : Code}
    (h : s.check a n = .error (.raise c)) :
    c = Code.protection ∧ ∃ j, s.isReserved j = true := by
  obtain ⟨hc, -, -, -, k, -, hk⟩ := (check_raise_iff _ _ _ _).1 h
  exact ⟨hc, _, hk⟩

/-- A destination write: the register write, or the store in accessible memory (R162). -/
theorem writeDest_ok_iff (s : State) (sz : Size) (d : Dest) (v : BitVec sz.bits) (t : State) :
    s.writeDest sz d v = .ok t ↔
      (∃ r, d = .reg r ∧ t = s.writeView sz r v) ∨
        ∃ a, d = .mem a ∧ s.accessible a sz.bytes ∧
          t = s.storeBytes a (valueBytes s.cfg.byteOrder sz.bytes v.toNat) := by
  cases d with
  | reg r => simp [State.writeDest, eq_comm]
  | mem a => simp [State.writeDest, memWrite_ok_iff]

/-- A destination write stops an instruction only by the check of its memory access. -/
theorem writeDest_error_iff (s : State) (sz : Size) (d : Dest) (v : BitVec sz.bits) (e : Stop) :
    s.writeDest sz d v = .error e ↔ ∃ a, d = .mem a ∧ s.check a sz.bytes = .error e := by
  cases d with
  | reg r => simp [State.writeDest]
  | mem a => simp [State.writeDest, memWrite_error_iff]

/-- A push changes neither the configuration nor the modes. -/
theorem push_mode {s u : State} {sz : Size} {v : BitVec sz.bits} (h : s.push sz v = .ok u) :
    u.cfg = s.cfg ∧ u.amode = s.amode ∧ u.mmodel = s.mmodel := by
  obtain ⟨-, rfl⟩ := (push_ok_iff _ _ _ _).1 h
  exact ⟨rfl, rfl, rfl⟩

/-! ### The rule of each instruction with operands, as it completes -/

theorem execMov_next {sz : Size} {d : Dest} {o : Source} {s t : State}
    (h : execMov sz d o s = .next t) :
    (s.canRead sz o ∧ s.writeDest sz d (s.sourceValue sz o) = .ok t) ∨
      ∃ c, t = (s.setPc s.pc).setRun (.trapped ⟨c, s.instrAt, s.pc⟩) ∧ c = Code.protection ∧
        ∃ j, s.isReserved j = true := by
  unfold execMov at h
  rw [complete_next_iff] at h
  cases hs : s.source sz o with
  | ok v =>
    obtain ⟨hr, rfl⟩ := (source_ok_iff _ _ _ _).1 hs
    simp only [hs] at h
    obtain h | ⟨c, hc, ht⟩ := h
    · exact .inl ⟨hr, h⟩
    · obtain ⟨a, -, hca⟩ := (writeDest_error_iff _ _ _ _ _).1 hc
      exact .inr ⟨c, ht, check_raise_reserved hca⟩
  | error e =>
    simp only [hs] at h
    obtain h | ⟨c, hc, ht⟩ := h
    · cases h
    · cases hc
      obtain ⟨a, -, hca⟩ := (source_error_iff _ _ _ _).1 hs
      exact .inr ⟨c, ht, check_raise_reserved hca⟩

theorem execPush_next {sz : Size} {o : Source} {s t : State} (h : execPush sz o s = .next t) :
    (s.canRead sz o ∧ s.push sz (s.sourceValue sz o) = .ok t) ∨
      ∃ c, t = (s.setPc s.pc).setRun (.trapped ⟨c, s.instrAt, s.pc⟩) ∧ c = Code.protection ∧
        ∃ j, s.isReserved j = true := by
  unfold execPush at h
  rw [complete_next_iff] at h
  cases hs : s.source sz o with
  | ok v =>
    obtain ⟨hr, rfl⟩ := (source_ok_iff _ _ _ _).1 hs
    simp only [hs] at h
    obtain h | ⟨c, hc, ht⟩ := h
    · exact .inl ⟨hr, h⟩
    · exact .inr ⟨c, ht, check_raise_reserved ((push_error_iff _ _ _ _).1 hc)⟩
  | error e =>
    simp only [hs] at h
    obtain h | ⟨c, hc, ht⟩ := h
    · cases h
    · cases hc
      obtain ⟨a, -, hca⟩ := (source_error_iff _ _ _ _).1 hs
      exact .inr ⟨c, ht, check_raise_reserved hca⟩

/-- The state POP writes its destination in: RSP raised by `S` (R165). -/
theorem execPop_next {sz : Size} {d : Dest} {s t : State} (h : execPop sz d s = .next t) :
    (s.accessible (s.popAddr sz) sz.bytes ∧
        (s.setReg Reg.rsp (s.sp + BitVec.ofNat 64 sz.bytes)).writeDest sz d
          (s.memValue sz (s.popAddr sz)) = .ok t) ∨
      ∃ c, t = (s.setPc s.pc).setRun (.trapped ⟨c, s.instrAt, s.pc⟩) ∧ c = Code.protection ∧
        ∃ j, s.isReserved j = true := by
  unfold execPop at h
  rw [complete_next_iff] at h
  cases hs : s.pop sz with
  | ok p =>
    obtain ⟨v, u⟩ := p
    obtain ⟨hr, rfl, rfl⟩ := (pop_ok_iff _ _ _ _).1 hs
    simp only [hs] at h
    obtain h | ⟨c, hc, ht⟩ := h
    · exact .inl ⟨hr, h⟩
    · obtain ⟨a, -, hca⟩ := (writeDest_error_iff _ _ _ _ _).1 hc
      exact .inr ⟨c, ht, check_raise_reserved hca⟩
  | error e =>
    simp only [hs] at h
    obtain h | ⟨c, hc, ht⟩ := h
    · cases h
    · cases hc
      exact .inr ⟨c, ht, check_raise_reserved ((pop_error_iff _ _ _).1 hs)⟩

theorem execCall_next {o : Source} {s t : State} (h : execCall o s = .next t) :
    (∃ u, s.push .q s.pc = .ok u ∧ u.canRead .q o ∧ t = u.setPc (u.sourceValue .q o)) ∨
      ∃ c, t = (s.setPc s.pc).setRun (.trapped ⟨c, s.instrAt, s.pc⟩) ∧ c = Code.protection ∧
        ∃ j, s.isReserved j = true := by
  unfold execCall at h
  rw [complete_next_iff] at h
  cases hs : s.push .q s.pc with
  | ok u =>
    simp only [hs] at h
    cases hu : u.source .q o with
    | ok v =>
      obtain ⟨hr, rfl⟩ := (source_ok_iff _ _ _ _).1 hu
      simp only [hu] at h
      obtain h | ⟨c, hc, ht⟩ := h
      · cases h; exact .inl ⟨u, rfl, hr, rfl⟩
      · cases hc
    | error e =>
      simp only [hu] at h
      obtain h | ⟨c, hc, ht⟩ := h
      · cases h
      · cases hc
        obtain ⟨a, -, hca⟩ := (source_error_iff _ _ _ _).1 hu
        obtain ⟨h1, h2, h3⟩ := push_mode hs
        rw [check_congr h1 h2 h3] at hca
        exact .inr ⟨c, ht, check_raise_reserved hca⟩
  | error e =>
    simp only [hs] at h
    obtain h | ⟨c, hc, ht⟩ := h
    · cases h
    · cases hc
      exact .inr ⟨c, ht, check_raise_reserved ((push_error_iff _ _ _ _).1 hs)⟩

theorem execRet_next {s t : State} (h : execRet s = .next t) :
    (s.accessible (s.popAddr .q) 8 ∧
        t = (s.setReg Reg.rsp (s.sp + 8)).setPc (s.memValue .q (s.popAddr .q))) ∨
      ∃ c, t = (s.setPc s.pc).setRun (.trapped ⟨c, s.instrAt, s.pc⟩) ∧ c = Code.protection ∧
        ∃ j, s.isReserved j = true := by
  unfold execRet at h
  rw [complete_next_iff] at h
  cases hs : s.pop .q with
  | ok p =>
    obtain ⟨v, u⟩ := p
    obtain ⟨hr, rfl, rfl⟩ := (pop_ok_iff _ _ _ _).1 hs
    simp only [hs] at h
    obtain h | ⟨c, hc, ht⟩ := h
    · cases h; exact .inl ⟨hr, rfl⟩
    · cases hc
  | error e =>
    simp only [hs] at h
    obtain h | ⟨c, hc, ht⟩ := h
    · cases h
    · cases hc
      exact .inr ⟨c, ht, check_raise_reserved ((pop_error_iff _ _ _).1 hs)⟩

theorem execJmp_next {o : Source} {s t : State} (h : execJmp o s = .next t) :
    (s.canRead .q o ∧ t = s.setPc (s.sourceValue .q o)) ∨
      ∃ c, t = (s.setPc s.pc).setRun (.trapped ⟨c, s.instrAt, s.pc⟩) ∧ c = Code.protection ∧
        ∃ j, s.isReserved j = true := by
  unfold execJmp at h
  rw [complete_next_iff] at h
  cases hs : s.source .q o with
  | ok v =>
    obtain ⟨hr, rfl⟩ := (source_ok_iff _ _ _ _).1 hs
    simp only [hs] at h
    obtain h | ⟨c, hc, ht⟩ := h
    · cases h; exact .inl ⟨hr, rfl⟩
    · cases hc
  | error e =>
    simp only [hs] at h
    obtain h | ⟨c, hc, ht⟩ := h
    · cases h
    · cases hc
      obtain ⟨a, -, hca⟩ := (source_error_iff _ _ _ _).1 hs
      exact .inr ⟨c, ht, check_raise_reserved hca⟩

theorem execJne_next {o : Source} {s t : State} (h : execJne o s = .next t) :
    (s.canRead .q o ∧ t = if s.flags.ZF then s else s.setPc (s.sourceValue .q o)) ∨
      ∃ c, t = (s.setPc s.pc).setRun (.trapped ⟨c, s.instrAt, s.pc⟩) ∧ c = Code.protection ∧
        ∃ j, s.isReserved j = true := by
  unfold execJne at h
  rw [complete_next_iff] at h
  cases hs : s.source .q o with
  | ok v =>
    obtain ⟨hr, rfl⟩ := (source_ok_iff _ _ _ _).1 hs
    simp only [hs] at h
    obtain h | ⟨c, hc, ht⟩ := h
    · cases h; exact .inl ⟨hr, rfl⟩
    · cases hc
  | error e =>
    simp only [hs] at h
    obtain h | ⟨c, hc, ht⟩ := h
    · cases h
    · cases hc
      obtain ⟨a, -, hca⟩ := (source_error_iff _ _ _ _).1 hs
      exact .inr ⟨c, ht, check_raise_reserved hca⟩

theorem execCmp_next {sz : Size} {a : Dest} {o : Source} {s t : State}
    (h : execCmp sz a o s = .next t) :
    (s.canRead sz a.asSource ∧ s.canRead sz o ∧
        t = s.setFlags
          (compareFlags s.flags (s.sourceValue sz a.asSource) (s.sourceValue sz o))) ∨
      ∃ c, t = (s.setPc s.pc).setRun (.trapped ⟨c, s.instrAt, s.pc⟩) ∧ c = Code.protection ∧
        ∃ j, s.isReserved j = true := by
  unfold execCmp at h
  rw [complete_next_iff] at h
  cases hs : s.source sz a.asSource with
  | ok v =>
    obtain ⟨hr, rfl⟩ := (source_ok_iff _ _ _ _).1 hs
    simp only [hs] at h
    cases hu : s.source sz o with
    | ok w =>
      obtain ⟨hr', rfl⟩ := (source_ok_iff _ _ _ _).1 hu
      simp only [hu] at h
      obtain h | ⟨c, hc, ht⟩ := h
      · cases h; exact .inl ⟨hr, hr', rfl⟩
      · cases hc
    | error e =>
      simp only [hu] at h
      obtain h | ⟨c, hc, ht⟩ := h
      · cases h
      · cases hc
        obtain ⟨b, -, hca⟩ := (source_error_iff _ _ _ _).1 hu
        exact .inr ⟨c, ht, check_raise_reserved hca⟩
  | error e =>
    simp only [hs] at h
    obtain h | ⟨c, hc, ht⟩ := h
    · cases h
    · cases hc
      obtain ⟨b, -, hca⟩ := (source_error_iff _ _ _ _).1 hs
      exact .inr ⟨c, ht, check_raise_reserved hca⟩

/-- INT never completes: it raises the code it names (R143), or Protection Exception on its operand. -/
theorem execInt_next {o : Source} {s t : State} (h : execInt o s = .next t) :
    ∃ c, t = (s.setPc s.pc).setRun (.trapped ⟨c, s.instrAt, s.pc⟩) ∧ codeKind c ≠ .reserved := by
  unfold execInt at h
  rw [complete_next_iff] at h
  cases hs : s.source .q o with
  | ok v =>
    simp only [hs] at h
    obtain h | ⟨c, hc, ht⟩ := h
    · cases h
    · simp only [Except.error.injEq] at hc
      unfold interruptOf at hc
      split at hc
      · cases hc
      · split at hc
        · cases hc
        · next hk => cases hc; exact ⟨_, ht, hk⟩
  | error e =>
    simp only [hs] at h
    obtain h | ⟨c, hc, ht⟩ := h
    · cases h
    · cases hc
      obtain ⟨a, -, hca⟩ := (source_error_iff _ _ _ _).1 hs
      obtain rfl := ((check_raise_iff _ _ _ _).1 hca).1
      exact ⟨_, ht, by decide⟩

theorem execCpuid_next {s t : State} (h : execCpuid s = .next t) :
    ∃ ws, cpuidWrites s.cfg (s.reg Reg.rax) s.flags.ID = some ws ∧ t = s.applyWrites ws := by
  unfold execCpuid at h
  rw [complete_next_iff] at h
  cases hs : cpuidWrites s.cfg (s.reg Reg.rax) s.flags.ID with
  | some ws =>
    simp only [hs] at h
    obtain h | ⟨c, hc, -⟩ := h
    · cases h; exact ⟨ws, rfl, rfl⟩
    · cases hc
  | none =>
    simp only [hs] at h
    obtain h | ⟨c, hc, -⟩ := h
    · cases h
    · cases hc

/-! ### All instructions together -/

/-- Why an instruction raises a code with `next` the address after it: it is UD, it is BRK, an access of it
touches reserved memory, or it is INT. -/
def TrapCause (i : Instr) (s : State) (c : Code) : Prop :=
  (i = .ud ∧ c = Code.invalidOpcode) ∨
    (i = .brk ∧ s.cfg.ccIsBreakpoint = true ∧ c = Code.breakpoint) ∨
    (c = Code.protection ∧ ∃ j, s.isReserved j = true) ∨ ∃ o, i = .int o

/-- What `exec` can answer: a completed instruction, still in the run state it began in, halted or shut
down; or a trap on the state it began in. In each case the state no instruction writes is kept and
memory changes by at most one store. -/
structure ExecEffect (i : Instr) (s t : State) : Prop where
  fixed : SameFixed s t
  mem : MemEffect s t
  run : t.run = s.run ∨ (i = .hlt ∧ t.run = .halted) ∨ (i = .sysexit ∧ t.run = .shutdown) ∨
    ∃ c next, t = (s.setPc next).setRun (.trapped ⟨c, s.instrAt, next⟩) ∧ codeKind c ≠ .reserved ∧
      ((next = s.pc ∧ TrapCause i s c) ∨
        (next = s.instrAt ∧ i = .brk ∧ s.cfg.ccIsBreakpoint = false ∧ c = Code.invalidOpcode))

theorem execEffect_trap {i : Instr} {s : State} {c : Code} (hk : codeKind c ≠ .reserved)
    (hc : TrapCause i s c) :
    ExecEffect i s ((s.setPc s.pc).setRun (.trapped ⟨c, s.instrAt, s.pc⟩)) :=
  ⟨⟨⟨rfl, rfl, rfl, rfl, rfl, rfl⟩, rfl, rfl, rfl, rfl⟩, memEffect_same rfl rfl,
    .inr (.inr (.inr ⟨c, s.pc, rfl, hk, .inl ⟨rfl, hc⟩⟩))⟩

theorem execEffect_protection {i : Instr} {s : State} (h : ∃ j, s.isReserved j = true) :
    ExecEffect i s ((s.setPc s.pc).setRun (.trapped ⟨Code.protection, s.instrAt, s.pc⟩)) :=
  execEffect_trap (by decide) (.inr (.inr (.inl ⟨rfl, h⟩)))

theorem memEffect_storeBytes {s u t : State} {a : Word} {bs : List Byte}
    (ha : s.accessible a bs.length) (hm : u.mem = s.mem) (hw : u.written = s.written)
    (htm : t.mem = (u.storeBytes a bs).mem) (htw : t.written = (u.storeBytes a bs).written) :
    MemEffect s t :=
  .inr ⟨a, bs, ha, by rw [htm, State.storeBytes_mem, hm], by rw [htw, State.storeBytes_written, hw]⟩

/-- The effect of every instruction. -/
theorem exec_effect {i : Instr} {s t : State} (h : exec i s = .next t) : ExecEffect i s t := by
  cases i with
  | nop => cases h; exact ⟨sameFixed_refl s, memEffect_same rfl rfl, .inl rfl⟩
  | ud => cases h; exact execEffect_trap (by decide) (.inl ⟨rfl, rfl⟩)
  | hlt =>
    cases h
    exact ⟨⟨⟨rfl, rfl, rfl, rfl, rfl, rfl⟩, rfl, rfl, rfl, rfl⟩, memEffect_same rfl rfl,
      .inr (.inl ⟨rfl, rfl⟩)⟩
  | int o =>
    obtain ⟨c, rfl, hk⟩ := execInt_next h
    exact execEffect_trap hk (.inr (.inr (.inr ⟨o, rfl⟩)))
  | mov sz d o =>
    obtain ⟨-, h⟩ | ⟨c, rfl, rfl, hj⟩ := execMov_next h
    · obtain ⟨r, -, rfl⟩ | ⟨a, -, ha, rfl⟩ := (writeDest_ok_iff _ _ _ _ _).1 h
      · obtain ⟨hf, hm, hw, -, -, hr, -⟩ := writeView_fixed s sz r (s.sourceValue sz o)
        exact ⟨hf, memEffect_same hm hw, .inl hr⟩
      · exact ⟨⟨⟨rfl, rfl, rfl, rfl, rfl, rfl⟩, rfl, rfl, rfl, rfl⟩,
          memEffect_storeBytes (by simpa using ha) rfl rfl rfl rfl, .inl rfl⟩
    · exact execEffect_protection hj
  | push sz o =>
    obtain ⟨-, h⟩ | ⟨c, rfl, rfl, hj⟩ := execPush_next h
    · obtain ⟨ha, rfl⟩ := (push_ok_iff _ _ _ _).1 h
      exact ⟨⟨⟨rfl, rfl, rfl, rfl, rfl, rfl⟩, rfl, rfl, rfl, rfl⟩,
        memEffect_storeBytes (by simpa using ha) rfl rfl rfl rfl, .inl rfl⟩
    · exact execEffect_protection hj
  | pop sz d =>
    obtain ⟨-, h⟩ | ⟨c, rfl, rfl, hj⟩ := execPop_next h
    · obtain ⟨r, -, rfl⟩ | ⟨a, -, ha, rfl⟩ := (writeDest_ok_iff _ _ _ _ _).1 h
      · obtain ⟨hf, hm, hw, -, -, hr, -⟩ := writeView_fixed
          (s.setReg Reg.rsp (s.sp + BitVec.ofNat 64 sz.bytes)) sz r (s.memValue sz (s.popAddr sz))
        exact ⟨hf, memEffect_same hm hw, .inl hr⟩
      · exact ⟨⟨⟨rfl, rfl, rfl, rfl, rfl, rfl⟩, rfl, rfl, rfl, rfl⟩,
          memEffect_storeBytes (u := s.setReg Reg.rsp (s.sp + BitVec.ofNat 64 sz.bytes))
            (by simpa using (accessible_congr (s := s) rfl rfl rfl a sz.bytes).1 ha) rfl rfl rfl rfl, .inl rfl⟩
    · exact execEffect_protection hj
  | cpuid =>
    obtain ⟨ws, -, rfl⟩ := execCpuid_next h
    obtain ⟨x, hx, -⟩ := applyWrites_eq s ws
    rw [hx]
    exact ⟨⟨⟨rfl, rfl, rfl, rfl, rfl, rfl⟩, rfl, rfl, rfl, rfl⟩, memEffect_same rfl rfl, .inl rfl⟩
  | call o =>
    obtain ⟨u, hu, -, rfl⟩ | ⟨c, rfl, rfl, hj⟩ := execCall_next h
    · obtain ⟨ha, rfl⟩ := (push_ok_iff _ _ _ _).1 hu
      exact ⟨⟨⟨rfl, rfl, rfl, rfl, rfl, rfl⟩, rfl, rfl, rfl, rfl⟩,
        memEffect_storeBytes (by simpa using ha) rfl rfl rfl rfl, .inl rfl⟩
    · exact execEffect_protection hj
  | ret =>
    obtain ⟨-, rfl⟩ | ⟨c, rfl, rfl, hj⟩ := execRet_next h
    · exact ⟨⟨⟨rfl, rfl, rfl, rfl, rfl, rfl⟩, rfl, rfl, rfl, rfl⟩, memEffect_same rfl rfl, .inl rfl⟩
    · exact execEffect_protection hj
  | jmp o =>
    obtain ⟨-, rfl⟩ | ⟨c, rfl, rfl, hj⟩ := execJmp_next h
    · exact ⟨⟨⟨rfl, rfl, rfl, rfl, rfl, rfl⟩, rfl, rfl, rfl, rfl⟩, memEffect_same rfl rfl, .inl rfl⟩
    · exact execEffect_protection hj
  | sysexit =>
    cases h
    exact ⟨⟨⟨rfl, rfl, rfl, rfl, rfl, rfl⟩, rfl, rfl, rfl, rfl⟩, memEffect_same rfl rfl,
      .inr (.inr (.inl ⟨rfl, rfl⟩))⟩
  | cmp sz a o =>
    obtain ⟨-, -, rfl⟩ | ⟨c, rfl, rfl, hj⟩ := execCmp_next h
    · exact ⟨⟨⟨rfl, rfl, rfl, rfl, rfl, rfl⟩, rfl, rfl, rfl, rfl⟩, memEffect_same rfl rfl, .inl rfl⟩
    · exact execEffect_protection hj
  | jne o =>
    obtain ⟨-, rfl⟩ | ⟨c, rfl, rfl, hj⟩ := execJne_next h
    · split
      · exact ⟨sameFixed_refl s, memEffect_same rfl rfl, .inl rfl⟩
      · exact ⟨⟨⟨rfl, rfl, rfl, rfl, rfl, rfl⟩, rfl, rfl, rfl, rfl⟩, memEffect_same rfl rfl,
          .inl rfl⟩
    · exact execEffect_protection hj
  | brk =>
    simp only [exec, execBrk] at h
    split at h
    · next hcc => cases h; exact execEffect_trap (by decide) (.inr (.inl ⟨rfl, hcc, rfl⟩))
    · next hcc =>
      cases h
      exact ⟨⟨⟨rfl, rfl, rfl, rfl, rfl, rfl⟩, rfl, rfl, rfl, rfl⟩, memEffect_same rfl rfl,
        .inr (.inr (.inr ⟨Code.invalidOpcode, s.instrAt, rfl, by decide,
          .inr ⟨rfl, rfl, by simpa using hcc, rfl⟩⟩))⟩

end Sys2Proof.Machine
end

