-- ==== Sys2Proof/Laws/PerInstr.lean ====
section
/-! SUPPORT. The statements about every instruction, one lemma per constructor of `Instr`. -/

namespace Sys2Proof

/-- Decoding an opcode byte without a size prefix goes on with the opcode's operands at size 8. -/
theorem decodeRest_opcode (bo : ByteOrder) (op : Opcode) (bs : List Byte) :
    decodeRest bo (op.byte :: bs) = decodeOperands bo .q op bs := by
  simp [decodeRest, decodeHead, sizeOfPrefix_opcode, opcode_ofByte_byte]

/-- Decoding an opcode that takes a size prefix goes on with its operands at the encoded size. -/
theorem decodeRest_sized (bo : ByteOrder) (sz : Size) (op : Opcode) (h : op.takesSizePrefix = true)
    (bs : List Byte) :
    decodeRest bo (encodeSize sz ++ op.byte :: bs) = decodeOperands bo sz op bs := by
  cases sz with
  | q => exact decodeRest_opcode bo op bs
  | b | w | d => simp [encodeSize, decodeRest, decodeHead, sizeOfPrefix, opcode_ofByte_byte, h]

/-- Decoding the encoding of a well-formed instruction gives it back, with the bytes that follow, in
either byte order. -/
def Laws.RoundTrip.Statement (i : Instr) : Prop :=
  ∀ (bo : ByteOrder) (rest : List Byte), i.WellFormed →
    decodeRest bo (encode bo i ++ rest) = .ok (i, rest)

theorem Laws.RoundTrip.nop : Laws.RoundTrip.Statement .nop :=
  fun bo rest _ => decodeRest_opcode bo .nop rest

theorem Laws.RoundTrip.ud : Laws.RoundTrip.Statement .ud :=
  fun bo rest _ => decodeRest_opcode bo .ud rest

theorem Laws.RoundTrip.hlt : Laws.RoundTrip.Statement .hlt :=
  fun bo rest _ => decodeRest_opcode bo .hlt rest

theorem Laws.RoundTrip.int (o : Source) : Laws.RoundTrip.Statement (.int o) := fun bo rest h => by
  rw [encode, List.cons_append, decodeRest_opcode]
  simp [decodeOperands, decodeF1, decodeSource_encodeSource bo .q h rest]

theorem Laws.RoundTrip.mov (sz : Size) (d : Dest) (o : Source) :
    Laws.RoundTrip.Statement (.mov sz d o) := fun bo rest h => by
  rw [encode, List.append_assoc, List.cons_append, decodeRest_sized bo sz .mov rfl]
  simp [decodeOperands, decodeF2, decodeDest_encodeSource, decodeF1,
    decodeSource_encodeSource bo sz h rest]

theorem Laws.RoundTrip.push (sz : Size) (o : Source) : Laws.RoundTrip.Statement (.push sz o) :=
  fun bo rest h => by
    rw [encode, List.append_assoc, List.cons_append, decodeRest_sized bo sz .push rfl]
    simp [decodeOperands, decodeF1, decodeSource_encodeSource bo sz h rest]

theorem Laws.RoundTrip.pop (sz : Size) (d : Dest) : Laws.RoundTrip.Statement (.pop sz d) :=
  fun bo rest _ => by
    rw [encode, List.append_assoc, List.cons_append, decodeRest_sized bo sz .pop rfl]
    simp [decodeOperands, decodeF1Dest, decodeDest_encodeSource]

theorem Laws.RoundTrip.cpuid : Laws.RoundTrip.Statement .cpuid :=
  fun bo rest _ => decodeRest_opcode bo .cpuid rest

theorem Laws.RoundTrip.call (o : Source) : Laws.RoundTrip.Statement (.call o) := fun bo rest h => by
  rw [encode, List.cons_append, decodeRest_opcode]
  simp [decodeOperands, decodeF1, decodeSource_encodeSource bo .q h rest]

theorem Laws.RoundTrip.ret : Laws.RoundTrip.Statement .ret :=
  fun bo rest _ => decodeRest_opcode bo .ret rest

theorem Laws.RoundTrip.jmp (o : Source) : Laws.RoundTrip.Statement (.jmp o) := fun bo rest h => by
  rw [encode, List.cons_append, decodeRest_opcode]
  simp [decodeOperands, decodeF1, decodeSource_encodeSource bo .q h rest]

theorem Laws.RoundTrip.sysexit : Laws.RoundTrip.Statement .sysexit :=
  fun bo rest _ => decodeRest_opcode bo .sysexit rest

theorem Laws.RoundTrip.cmp (sz : Size) (a : Dest) (o : Source) :
    Laws.RoundTrip.Statement (.cmp sz a o) := fun bo rest h => by
  rw [encode, List.append_assoc, List.cons_append, decodeRest_sized bo sz .cmp rfl]
  simp [decodeOperands, decodeF2, decodeDest_encodeSource, decodeF1,
    decodeSource_encodeSource bo sz h rest]

theorem Laws.RoundTrip.jne (o : Source) : Laws.RoundTrip.Statement (.jne o) := fun bo rest h => by
  rw [encode, List.cons_append, decodeRest_opcode]
  simp [decodeOperands, decodeF1, decodeSource_encodeSource bo .q h rest]

theorem Laws.RoundTrip.brk : Laws.RoundTrip.Statement .brk :=
  fun bo rest _ => decodeRest_opcode bo .brk rest

end Sys2Proof
end

