-- ==== Sys2Proof/Laws/Step.lean ====
section
/-! SUPPORT. Fetch, decode and the step cycle: what a step can do, said once. -/

namespace Sys2Proof.Machine

/-! ### Fetch -/

/-- A byte that can be fetched is the byte of memory there. -/
theorem fetchByte_ok {s : State} {k : Nat} {b : Byte} (h : s.fetchByte k = .ok b) :
    k < 2 ^ 64 ∧ s.accessible (BitVec.ofNat 64 k) 1 ∧ b = s.byteAt k ∧
      ¬ (s.cfg.smcPolicy = .refuse ∧ s.written.contains k = true) := by
  unfold State.fetchByte at h
  split at h
  · cases h
  · next hk =>
    split at h
    · cases h
    · next u hc =>
      split at h
      · cases h
      · next hs => cases h; exact ⟨by omega, (check_ok_iff _ _ _ u).1 hc, rfl, hs⟩

/-- The only code a fetch raises is Protection Exception, for a reserved byte (R222). -/
theorem fetchByte_raise {s : State} {k : Nat} {c : Code} (h : s.fetchByte k = .error (.raise c)) :
    c = Code.protection ∧ ∃ j, s.isReserved j = true := by
  unfold State.fetchByte at h
  split at h
  · cases h
  · split at h
    · next e hc =>
      cases h
      obtain ⟨hc, -, -, -, j, -, hj⟩ := (check_raise_iff _ _ _ _).1 hc
      exact ⟨hc, _, hj⟩
    · split at h <;> cases h

/-- The window begins with any bytes that can be fetched, as far as it reaches. -/
theorem fetchWindow_take {f : Nat → Res Byte} {k n : Nat} {bs : List Byte}
    (h : ∀ j (hj : j < bs.length), f (k + j) = .ok bs[j]) :
    bs.take n <+: (fetchWindow f k n).1 := by
  induction n generalizing k bs with
  | zero => simp
  | succ n ih =>
    cases bs with
    | nil => simp
    | cons b bs =>
      have h0 := h 0 (by simp)
      simp only [Nat.add_zero, List.getElem_cons_zero] at h0
      have h1 : ∀ j (hj : j < bs.length), f (k + 1 + j) = .ok bs[j] := by
        intro j hj
        have h2 := h (j + 1) (by simpa using hj)
        rw [show k + 1 + j = k + (j + 1) from by omega]
        simpa using h2
      simp only [fetchWindow, h0, List.take_succ_cons, List.cons_prefix_cons, true_and]
      exact ih h1

/-- Where the fetch after some bytes stops, the window is those bytes and the stop. -/
theorem fetchWindow_stop {f : Nat → Res Byte} {k n : Nat} {bs : List Byte} {e : Stop}
    (h : ∀ j (hj : j < bs.length), f (k + j) = .ok bs[j])
    (he : f (k + bs.length) = .error e) (hn : bs.length < n) :
    fetchWindow f k n = (bs, some e) := by
  induction n generalizing k bs with
  | zero => omega
  | succ n ih =>
    cases bs with
    | nil =>
      simp only [List.length_nil, Nat.add_zero] at he
      simp [fetchWindow, he]
    | cons b bs =>
      have h0 := h 0 (by simp)
      simp only [Nat.add_zero, List.getElem_cons_zero] at h0
      have h1 : ∀ j (hj : j < bs.length), f (k + 1 + j) = .ok bs[j] := by
        intro j hj
        have h2 := h (j + 1) (by simpa using hj)
        rw [show k + 1 + j = k + (j + 1) from by omega]
        simpa using h2
      have h2 : f (k + 1 + bs.length) = .error e := by
        rw [← he]
        congr 1
        simp only [List.length_cons]
        omega
      rw [fetchWindow, h0]
      simp only [ih h1 h2 (by simpa using hn)]

/-- What stops the window stops the fetch of some byte. -/
theorem fetchWindow_snd {f : Nat → Res Byte} {k n : Nat} {e : Stop} (h : (fetchWindow f k n).2 = some e) :
    ∃ j, k ≤ j ∧ f j = .error e := by
  induction n generalizing k with
  | zero => simp [fetchWindow] at h
  | succ n ih =>
    cases hb : f k with
    | ok b =>
      simp only [fetchWindow, hb] at h
      obtain ⟨j, hj, he⟩ := ih h
      exact ⟨j, by omega, he⟩
    | error e' =>
      simp only [fetchWindow, hb, Option.some.injEq] at h
      exact ⟨k, Nat.le_refl k, h ▸ hb⟩

/-- The window from `k` up depends on the bytes from `k` up only. -/
theorem fetchWindow_congr {f g : Nat → Res Byte} {k : Nat} (h : ∀ j, k ≤ j → f j = g j) (n : Nat) :
    fetchWindow f k n = fetchWindow g k n := by
  induction n generalizing k with
  | zero => rfl
  | succ n ih =>
    have h1 : fetchWindow f (k + 1) n = fetchWindow g (k + 1) n := ih fun j hj => h j (by omega)
    simp only [fetchWindow, h k (Nat.le_refl k), h1]

/-! ### Fetch and decode -/

/-- A decoded instruction is well formed, and its encoding is the bytes it was read from. -/
theorem decodeRest_ok {bo : ByteOrder} {bs rest : List Byte} {i : Instr}
    (h : decodeRest bo bs = .ok (i, rest)) : bs = encode bo i ++ rest ∧ i.WellFormed := by
  have hF1 : ∀ {sz : Size} {mk : Source → Instr} {cs : List Byte},
      decodeF1 bo sz mk cs = .ok (i, rest) →
        ∃ o, i = mk o ∧ cs = encodeSource bo sz o ++ rest ∧ o.fits sz = true := by
    intro sz mk cs hd
    unfold decodeF1 at hd
    split at hd
    · next o r hs => cases hd; exact ⟨o, rfl, decodeSource_ok hs⟩
    · cases hd
  have hF1D : ∀ {sz : Size} {mk : Dest → Instr} {cs : List Byte},
      decodeF1Dest bo sz mk cs = .ok (i, rest) →
        ∃ d, i = mk d ∧ cs = encodeSource bo sz d.asSource ++ rest := by
    intro sz mk cs hd
    unfold decodeF1Dest at hd
    split at hd
    · next d r hs => cases hd; exact ⟨d, rfl, decodeDest_ok hs⟩
    · cases hd
  have hF2 : ∀ {sz : Size} {mk : Dest → Source → Instr} {cs : List Byte},
      decodeF2 bo sz mk cs = .ok (i, rest) → ∃ d o, i = mk d o ∧
        cs = encodeSource bo sz d.asSource ++ (encodeSource bo sz o ++ rest) ∧
        o.fits sz = true := by
    intro sz mk cs hd
    unfold decodeF2 at hd
    split at hd
    · next d r hs =>
      obtain ⟨o, hi, hr, hf⟩ := hF1 hd
      exact ⟨d, o, hi, hr ▸ decodeDest_ok hs, hf⟩
    · cases hd
  unfold decodeRest at h
  split at h
  · cases h
  · next pre b r hhead =>
    split at h
    · cases h
    · next op hop =>
      have hb := opcode_byte_of_ofByte hop
      split at h
      · cases h
      · next hpre =>
        have hbs : bs = encodeSize (pre.getD .q) ++ op.byte :: r ∧
            (op.takesSizePrefix = false → pre.getD .q = .q) := by
          cases bs with
          | nil => cases hhead
          | cons c cs =>
            simp only [decodeHead] at hhead
            split at hhead
            · cases hhead; exact ⟨by simp [encodeSize, hb], fun _ => rfl⟩
            · next sz hsz =>
              cases cs with
              | nil => cases hhead
              | cons c' cs =>
                cases hhead
                refine ⟨by simp [(encodeSize_of_sizeOfPrefix hsz).1, hb], fun ht => ?_⟩
                simp [ht] at hpre
        obtain ⟨rfl, hq⟩ := hbs
        cases op <;> simp only [decodeOperands] at h
        case int | call | jmp | jne =>
          rw [hq rfl] at h ⊢
          obtain ⟨o, rfl, rfl, hf⟩ := hF1 h
          exact ⟨by simp [encode, encodeSize], hf⟩
        case push =>
          obtain ⟨o, rfl, rfl, hf⟩ := hF1 h
          exact ⟨by simp [encode], hf⟩
        case pop =>
          obtain ⟨d, rfl, rfl⟩ := hF1D h
          exact ⟨by simp [encode], rfl⟩
        case mov | cmp =>
          obtain ⟨d, o, rfl, rfl, hf⟩ := hF2 h
          exact ⟨by simp [encode], hf⟩
        all_goals
          cases h
          rw [hq rfl]
          exact ⟨by simp [encode, encodeSize], rfl⟩

/-- Bytes that can be fetched from `pc` up and decode to an instruction are what the step decodes. -/
theorem fetchDecode_ok {s : State} {bs : List Byte} {i : Instr} {n : Nat}
    (h : ∀ j (hj : j < bs.length), s.fetchByte (s.pc.toNat + j) = .ok bs[j])
    (hd : decode s.cfg.byteOrder bs = .ok (i, n)) : s.fetchDecode = .ok (i, n) := by
  unfold decode at hd
  cases hr : decodeRest s.cfg.byteOrder bs with
  | error e => rw [hr] at hd; cases hd
  | ok p =>
    obtain ⟨j, rest⟩ := p
    rw [hr] at hd
    cases hd
    obtain ⟨hbs, hwf⟩ := decodeRest_ok hr
    have hlen := encode_length_le s.cfg.byteOrder i
    have henc : decode s.cfg.byteOrder (encode s.cfg.byteOrder i) =
        .ok (i, (encode s.cfg.byteOrder i).length) := by
      have hrt : decodeRest s.cfg.byteOrder (encode s.cfg.byteOrder i ++ []) = .ok (i, []) := by
        cases i with
        | nop => exact Laws.RoundTrip.nop _ _ hwf
        | ud => exact Laws.RoundTrip.ud _ _ hwf
        | hlt => exact Laws.RoundTrip.hlt _ _ hwf
        | int o => exact Laws.RoundTrip.int o _ _ hwf
        | mov sz d o => exact Laws.RoundTrip.mov sz d o _ _ hwf
        | push sz o => exact Laws.RoundTrip.push sz o _ _ hwf
        | pop sz d => exact Laws.RoundTrip.pop sz d _ _ hwf
        | cpuid => exact Laws.RoundTrip.cpuid _ _ hwf
        | call o => exact Laws.RoundTrip.call o _ _ hwf
        | ret => exact Laws.RoundTrip.ret _ _ hwf
        | jmp o => exact Laws.RoundTrip.jmp o _ _ hwf
        | sysexit => exact Laws.RoundTrip.sysexit _ _ hwf
        | cmp sz a o => exact Laws.RoundTrip.cmp sz a o _ _ hwf
        | jne o => exact Laws.RoundTrip.jne o _ _ hwf
        | brk => exact Laws.RoundTrip.brk _ _ hwf
      rw [List.append_nil] at hrt
      unfold decode
      rw [hrt]
      rfl
    obtain ⟨more, hmore⟩ := fetchWindow_take (n := maxInstrLength) h
    have hpre : ∃ more', (fetchWindow s.fetchByte s.pc.toNat maxInstrLength).1 =
        encode s.cfg.byteOrder i ++ more' := by
      rw [← hmore, hbs, List.take_append, List.take_of_length_le hlen]
      exact ⟨_, List.append_assoc _ _ _⟩
    obtain ⟨more', hmore'⟩ := hpre
    have hl : bs.length - rest.length = (encode s.cfg.byteOrder i).length := by
      rw [hbs, List.length_append]; omega
    show decodeFrom _ _ _ = _
    unfold decodeFrom
    rw [hmore', decode_append_ok henc, hl]

/-- What stops the fetch of a byte that the decoder needs stops the step (R113). -/
theorem fetchDecode_stop {s : State} {bs : List Byte} {e : Stop}
    (h : ∀ j (hj : j < bs.length), s.fetchByte (s.pc.toNat + j) = .ok bs[j])
    (hd : decode s.cfg.byteOrder bs = .error .needMore)
    (he : s.fetchByte (s.pc.toNat + bs.length) = .error e) : s.fetchDecode = .error e := by
  show decodeFrom _ _ _ = _
  unfold decodeFrom
  rw [fetchWindow_stop h he (decode_needMore_length hd)]
  simp only [hd]
  rfl

/-- Bytes that can be fetched from `pc` up and are a decode fault raise Invalid Opcode (R110, R112). -/
theorem fetchDecode_fault {s : State} {bs : List Byte} {e : DecodeError}
    (h : ∀ j (hj : j < bs.length), s.fetchByte (s.pc.toNat + j) = .ok bs[j])
    (hl : bs.length ≤ maxInstrLength) (hd : decode s.cfg.byteOrder bs = .error e)
    (he : e ≠ .needMore) : s.fetchDecode = .error (.raise Code.invalidOpcode) := by
  obtain ⟨more, hm⟩ := fetchWindow_take (n := maxInstrLength) h
  rw [List.take_of_length_le hl] at hm
  show decodeFrom _ _ _ = _
  unfold decodeFrom
  rw [← hm, decode_append_error hd he]
  cases e <;> first | rfl | exact absurd rfl he

/-- What RC answers besides an instruction: Invalid Opcode, or what stopped the fetch of a byte. -/
theorem decodeFrom_stop {bo : ByteOrder} {f : Nat → Res Byte} {k : Nat} {e : Stop}
    (h : decodeFrom bo f k = .error e) :
    e = .raise Code.invalidOpcode ∨ ∃ j, k ≤ j ∧ f j = .error e := by
  unfold decodeFrom at h
  split at h
  · cases h
  · cases hs : (fetchWindow f k maxInstrLength).2 with
    | none => rw [hs] at h; cases h; exact .inl rfl
    | some e' => rw [hs] at h; cases h; exact .inr (fetchWindow_snd hs)
  all_goals cases h; exact .inl rfl

/-- A fetch or decode that raises raises Invalid Opcode or, where memory is reserved, Protection
Exception (R215, R222). -/
theorem fetchDecode_raise {s : State} {c : Code} (h : s.fetchDecode = .error (.raise c)) :
    c = Code.invalidOpcode ∨ c = Code.protection ∧ ∃ j, s.isReserved j = true := by
  obtain h | ⟨j, -, hj⟩ := decodeFrom_stop h
  · cases h; exact .inl rfl
  · exact .inr (fetchByte_raise hj)

/-! ### The step -/

theorem singleStep_next_iff (o : Host.Outcome State Fault Refusal) (t : State) :
    singleStep o = .next t ↔ ∃ u, o = .next u ∧
      ((¬ (u.run = .running ∧ u.flags.TF = true) ∧ t = u) ∨
        (u.run = .running ∧ u.flags.TF = true ∧
          t = (u.setPc u.pc).setRun (.trapped ⟨Code.singleStep, u.instrAt, u.pc⟩))) := by
  cases o with
  | next u =>
    simp only [singleStep, takeTrap_eq]
    by_cases h : u.run = .running ∧ u.flags.TF = true
    · simp only [h]
      constructor
      · intro e; cases e; exact ⟨u, rfl, .inr ⟨h.1, h.2, rfl⟩⟩
      · rintro ⟨u', e, h'⟩
        cases e
        obtain ⟨h1, -⟩ | ⟨-, -, rfl⟩ := h'
        · exact absurd h h1
        · rfl
    · simp only [h, if_false]
      constructor
      · intro e; cases e; exact ⟨t, rfl, .inl ⟨h, rfl⟩⟩
      · rintro ⟨u', e, h'⟩
        cases e
        obtain ⟨-, rfl⟩ | ⟨h1, h2, -⟩ := h'
        · rfl
        · exact absurd ⟨h1, h2⟩ h
  | fault f => simp [singleStep]
  | refused r => simp [singleStep]

/-- What a step with codec `c` and the default TRAP_HANDLER can answer. -/
inductive StepCase (c : Codec) (s t : State) : Prop where
  /-- Shutdown and a terminal trap: nothing happens. -/
  | done (hs : s.run = .shutdown ∨ ∃ r, s.run = .trapped r) (ht : t = s)
  /-- An external interrupt is taken (R228). -/
  | interrupt (n : Fin 224) (hs : s.run = .running ∨ s.run = .halted) (hif : s.flags.IF = true)
      (hn : s.presented = some n)
      (ht : t = (s.passBoundary.setPc s.pc).setRun (.trapped ⟨externalCode n, s.pc, s.pc⟩))
  /-- The halt goes on. -/
  | wait (hs : s.run = .halted) (ha : s.accepted = none) (ht : t = s.passBoundary)
  /-- The fetch or the decoder raised. -/
  | decodeFault (code : Code) (hs : s.run = .running) (ha : s.accepted = none)
      (hd : s.fetchState.decodeWith c = .error (.raise code))
      (ht : t = (s.fetchState.setPc s.pc).setRun (.trapped ⟨code, s.pc, s.pc⟩))
  /-- An instruction was executed. -/
  | instr (i : Instr) (n : Nat) (u : State) (hs : s.run = .running) (ha : s.accepted = none)
      (hd : s.fetchState.decodeWith c = .ok (i, n))
      (he : exec i (s.fetchState.advance n) = .next u)
      (ht : (¬ (u.run = .running ∧ u.flags.TF = true) ∧ t = u) ∨
        (u.run = .running ∧ u.flags.TF = true ∧
          t = (u.setPc u.pc).setRun (.trapped ⟨Code.singleStep, u.instrAt, u.pc⟩)))

theorem accepted_some {s : State} {c : Code} (h : s.accepted = some c) :
    s.flags.IF = true ∧ ∃ n, s.presented = some n ∧ c = externalCode n := by
  unfold State.accepted at h
  split at h
  · next hif =>
    cases hp : s.presented with
    | none => rw [hp] at h; cases h
    | some n => rw [hp] at h; cases h; exact ⟨hif, n, rfl, rfl⟩
  · cases h

/-- With the default TRAP_HANDLER a trap is what it is. -/
@[simp] theorem deliver_terminal (o : Host.Outcome State Fault Refusal) :
    deliver terminalHandler o = o := by
  cases o with
  | next t =>
    cases h : t.run with
    | trapped r =>
      have ht : (t.setRun .running).setRun (.trapped r) = t := by rw [← h]; rfl
      simp only [deliver, h, terminalHandler, ht]
    | running | halted | shutdown => simp only [deliver, h]
  | fault f => rfl
  | refused r => rfl

/-- A handler sees the traps and nothing else. -/
theorem deliver_next (h : TrapHandler) {t : State} (ht : ∀ r, t.run ≠ .trapped r) :
    deliver h (.next t) = .next t := by
  cases hr : t.run with
  | trapped r => exact absurd hr (ht r)
  | running | halted | shutdown => simp only [deliver, hr]

theorem deliver_trap (h : TrapHandler) {t : State} {r : TrapRecord} (ht : t.run = .trapped r) :
    deliver h (.next t) = h (t.setRun .running) r.code r.origin r.next := by
  simp only [deliver, ht]

/-- While the CPU runs or is halted a platform's step is the step with the default TRAP_HANDLER, its trap
delivered (R231). -/
theorem stepOn_deliver {s : State} (hs : s.run = .running ∨ s.run = .halted) (p : Platform) :
    stepOn p s = deliver p.trapHandler (stepOn ⟨p.codec, terminalHandler⟩ s) := by
  rcases hs with hs | hs <;> simp only [stepOn, cycle, hs, deliver_terminal]

/-- A running CPU with no interrupt to take executes what its codec reads (R11). -/
theorem stepOn_running {s : State} (hs : s.run = .running) (ha : s.accepted = none) (p : Platform) :
    stepOn p s = deliver p.trapHandler
      (match s.fetchState.decodeWith p.codec with
      | .ok (i, n) => singleStep (exec i (s.fetchState.advance n))
      | .error e => complete s.fetchState (.error e)) := by
  unfold stepOn cycle
  rw [hs]
  unfold atBoundary
  rw [ha]
  rfl

theorem step_running {s : State} (hs : s.run = .running) (ha : s.accepted = none) :
    step s = match s.fetchState.fetchDecode with
      | .ok (i, n) => singleStep (exec i (s.fetchState.advance n))
      | .error e => complete s.fetchState (.error e) :=
  (stepOn_running hs ha defaultPlatform).trans (deliver_terminal _)

/-- A halted CPU with no interrupt to take waits (R142). -/
theorem stepOn_halted {s : State} (hs : s.run = .halted) (ha : s.accepted = none) (p : Platform) :
    stepOn p s = .next s.passBoundary := by
  unfold stepOn cycle
  rw [hs]
  unfold atBoundary
  rw [ha]
  exact deliver_next _ fun r hr => by rw [State.passBoundary_run, hs] at hr; cases hr

/-- An interrupt to take goes to TRAP_HANDLER with `pc` as it was (R228, R231). -/
theorem stepOn_interrupt {s : State} {code : Code} (hs : s.run = .running ∨ s.run = .halted)
    (ha : s.accepted = some code) (p : Platform) :
    stepOn p s = deliver p.trapHandler (takeTrap s.passBoundary code s.pc s.pc) := by
  unfold stepOn cycle
  rcases hs with hs | hs <;> rw [hs] <;> unfold atBoundary <;> rw [ha]

/-- Nothing happens in a shutdown or a terminal trap, on any platform (R145, R231). -/
theorem stepOn_done {s : State} (hs : s.run = .shutdown ∨ ∃ r, s.run = .trapped r) (p : Platform) :
    stepOn p s = .next s := by
  rcases hs with hs | ⟨r, hs⟩ <;> unfold stepOn cycle <;> rw [hs]

/-- Every next state of a step with the default TRAP_HANDLER is one of the cases. -/
theorem stepOn_cases {c : Codec} {s t : State} (h : stepOn ⟨c, terminalHandler⟩ s = .next t) :
    StepCase c s t := by
  have hint : ∀ {code}, s.run = .running ∨ s.run = .halted → s.accepted = some code →
      StepCase c s t := by
    intro code hs ha
    obtain ⟨hif, n, hn, rfl⟩ := accepted_some ha
    rw [stepOn_interrupt hs ha, deliver_terminal, takeTrap_eq] at h
    cases h
    exact .interrupt n hs hif hn rfl
  cases hs : s.run with
  | shutdown => rw [stepOn_done (.inl hs)] at h; cases h; exact .done (.inl hs) rfl
  | trapped r => rw [stepOn_done (.inr ⟨r, hs⟩)] at h; cases h; exact .done (.inr ⟨r, hs⟩) rfl
  | halted =>
    cases ha : s.accepted with
    | some code => exact hint (.inr hs) ha
    | none => rw [stepOn_halted hs ha] at h; cases h; exact .wait hs ha rfl
  | running =>
    cases ha : s.accepted with
    | some code => exact hint (.inl hs) ha
    | none =>
      rw [stepOn_running hs ha, deliver_terminal] at h
      cases hd : s.fetchState.decodeWith c with
      | ok p =>
        obtain ⟨i, n⟩ := p
        simp only [hd] at h
        obtain ⟨u, hu, ht⟩ := (singleStep_next_iff _ _).1 h
        exact .instr i n u hs ha hd hu ht
      | error e =>
        simp only [hd] at h
        obtain h | ⟨code, hc, ht⟩ := (complete_next_iff _ _ _).1 h
        · cases h
        · cases hc
          exact .decodeFault code hs ha hd ht

/-- Every next state of a step is one of the cases. -/
theorem step_cases {s t : State} (h : step s = .next t) : StepCase referenceCodec s t :=
  stepOn_cases h

/-! ### Runs -/

/-- A run of `k + 1` steps is a step and a run of `k` steps. -/
theorem reaches_succ {k : Nat} {s t : State} :
    Reaches (k + 1) s t ↔ ∃ u, step s = .next u ∧ Reaches k u t := by
  have h : ∀ (M : Host.Core) (s : M.State), M.run (k + 1) s =
      match M.step s with
      | .next u => M.run k u
      | .fault r => .fault r
      | .refused r => .refused r := fun _ _ => rfl
  unfold Reaches
  rw [h Sys2Proof.core s]
  show _ ↔ ∃ u, Sys2Proof.core.step s = .next u ∧ _
  cases Sys2Proof.core.step s with
  | next u => simp
  | fault f => simp
  | refused r => simp

end Sys2Proof.Machine
end

