-- ==== Sys2Proof/Machine/Assembly.lean ====
section
/-! DEFINITION. The register names (spec/10_state.md R20) and the assembler syntax
(spec/30_encoding.md R116, R117): the text of an instruction. No step reads it. -/

namespace Sys2Proof.Machine

/-- The byte, word, doubleword and quadword name of a register (R20). -/
def regNames : Vector (String × String × String × String) 16 :=
  #v[("AL", "AX", "EAX", "RAX"),
    ("BL", "BX", "EBX", "RBX"),
    ("CL", "CX", "ECX", "RCX"),
    ("DL", "DX", "EDX", "RDX"),
    ("DIL", "DI", "EDI", "RDI"),
    ("SIL", "SI", "ESI", "RSI"),
    ("BPL", "BP", "EBP", "RBP"),
    ("SPL", "SP", "ESP", "RSP"),
    ("R8B", "R8W", "R8D", "R8"),
    ("R9B", "R9W", "R9D", "R9"),
    ("R10B", "R10W", "R10D", "R10"),
    ("R11B", "R11W", "R11D", "R11"),
    ("R12B", "R12W", "R12D", "R12"),
    ("R13B", "R13W", "R13D", "R13"),
    ("R14B", "R14W", "R14D", "R14"),
    ("R15B", "R15W", "R15D", "R15")]

/-- The name of the `S`-byte view of a register (R20, R116). -/
def regName (sz : Size) (r : Reg) : String :=
  match sz, regNames[r] with
  | .b, (n, _, _, _) => n
  | .w, (_, n, _, _) => n
  | .d, (_, _, n, _) => n
  | .q, (_, _, _, n) => n

/-- A hexadecimal digit. -/
def hexDigit (n : Nat) : String :=
  match n with
  | 0 => "0" | 1 => "1" | 2 => "2" | 3 => "3" | 4 => "4" | 5 => "5" | 6 => "6" | 7 => "7"
  | 8 => "8" | 9 => "9" | 10 => "A" | 11 => "B" | 12 => "C" | 13 => "D" | 14 => "E" | _ => "F"

/-- The hexadecimal digits of a number of at most `fuel` digits, without leading zeros. -/
def hexDigits : Nat → Nat → String
  | 0, _ => ""
  | fuel + 1, n => if n < 16 then hexDigit n else hexDigits fuel (n / 16) ++ hexDigit (n % 16)

/-- A number, in hexadecimal with `0x` (R116). -/
def hexText (v : Word) : String := "0x" ++ hexDigits 16 v.toNat

/-- An operand (R116): a register by its name, an immediate as a bare number, a memory operand in
square brackets. -/
def sourceText (sz : Size) : Source → String
  | .reg r => regName sz r
  | .imm v => hexText v
  | .mem a => "[" ++ hexText a ++ "]"

/-- The operand is a register, whose name tells the operand size (R116). -/
def isRegister : Source → Bool
  | .reg _ => true
  | .imm _ => false
  | .mem _ => false

/-- The size written before the mnemonic when no register operand tells it (R117). -/
def sizeText (sz : Size) (told : Bool) : String :=
  if told then ""
  else
    match sz with
    | .b => "O8 "
    | .w => "O16 "
    | .d => "O32 "
    | .q => ""

/-- The text of an instruction (R116, R117): mnemonic in capitals, operands separated by a comma and a
space, Operand 1 first. -/
def asmText : Instr → String
  | .nop => "NOP"
  | .ud => "UD"
  | .hlt => "HLT"
  | .int o => "INT " ++ sourceText .q o
  | .mov sz d o =>
    sizeText sz (isRegister d.asSource || isRegister o) ++ "MOV " ++ sourceText sz d.asSource ++
      ", " ++ sourceText sz o
  | .push sz o => sizeText sz (isRegister o) ++ "PUSH " ++ sourceText sz o
  | .pop sz d => sizeText sz (isRegister d.asSource) ++ "POP " ++ sourceText sz d.asSource
  | .cpuid => "CPUID"
  | .call o => "CALL " ++ sourceText .q o
  | .ret => "RET"
  | .jmp o => "JMP " ++ sourceText .q o
  | .sysexit => "SYSEXIT"
  | .cmp sz a o =>
    sizeText sz (isRegister a.asSource || isRegister o) ++ "CMP " ++ sourceText sz a.asSource ++
      ", " ++ sourceText sz o
  | .jne o => "JNE " ++ sourceText .q o
  | .brk => "BRK"

end Sys2Proof.Machine
end

