-- ==== Sys2Proof/Tests/Slice0.lean ====
section
/-! SUPPORT. Tests, one step each on a small state, and a witness for every statement that has hypotheses.
Expected values come from spec/95_test_vectors.md and spec/43_compare.md R203 (the vector is named), or from
hand calculation. -/

namespace Sys2Proof.Tests

open Sys2Proof.Machine

/-! ### Helpers -/

/-- The reset state with `pc` at 0x1000 and these bytes there. -/
def boot (bs : List Byte) : State := ({ State.reset with pc := 0x1000 }).placeBytes 0x1000 bs

/-- `exec`'s view of an instruction of `n` bytes at 0x1000. -/
def running (n : Nat) (s : State) : State := { s with instrAt := 0x1000, pc := 0x1000 + BitVec.ofNat 64 n }

/-- The outcome is a next state with this property. -/
def answers (o : Host.Outcome State Fault Refusal) (p : State → Bool) : Bool :=
  match o with
  | .next t => p t
  | .fault _ => false
  | .refused _ => false

/-- The outcome is this refusal. -/
def refuses (o : Host.Outcome State Fault Refusal) (r : Refusal) : Bool :=
  match o with
  | .next _ => false
  | .fault _ => false
  | .refused r' => r' == r

/-- The outcome is this fault. -/
def faults (o : Host.Outcome State Fault Refusal) (f : Fault) : Bool :=
  match o with
  | .next _ => false
  | .fault f' => f' == f
  | .refused _ => false

/-- The run has ended in this trap, with `pc` at its `next`. -/
def trapIs (c : Code) (origin next : Word) (t : State) : Bool :=
  t.run == .trapped ⟨c, origin, next⟩ && t.pc == next

/-- Bytes of memory from an address up. -/
def bytesAre (a : Nat) (bs : List Byte) (t : State) : Bool := t.mem.readBytes a bs.length == bs

/-- A state with 16 bytes of reserved memory at 0x9000. -/
def reserve (s : State) : State := { s with cfg := { s.cfg with reservedMem := [⟨0x9000, 16⟩] } }

/-- A state with its flags replaced: CF ZF SF TF IF OF. -/
def withFlags (s : State) (cf zf sf tf ief ovf : Bool) : State :=
  s.setFlags ⟨cf, zf, sf, tf, ief, ovf, false, false⟩

/-! ### WellFormed: each check refuses an ill-formed term -/

theorem test_wf_mov : (Instr.mov .b (.reg 0) (.imm 0x100)).wellFormed = false := by decide
theorem test_wf_push : (Instr.push .w (.imm 0x10000)).wellFormed = false := by decide
theorem test_wf_cmp : (Instr.cmp .d (.reg 0) (.imm 0x100000000)).wellFormed = false := by decide
theorem test_wf_fits :
    (Instr.cmp .d (.reg 0) (.imm 0xFFFFFFFF)).wellFormed = true ∧
      (Instr.int (.imm 0xFFFFFFFFFFFFFFFF)).wellFormed = true := by decide

/-! ### Decoding: a written-out word for each constructor (E1 to E8, E16, Y, M, K, T) -/

theorem test_decode_nop : decode .little [0x00] = .ok (.nop, 1) := by decide
theorem test_decode_ud : decode .little [0x01] = .ok (.ud, 1) := by decide
theorem test_decode_hlt : decode .little [0x02] = .ok (.hlt, 1) := by decide
theorem test_decode_int :
    decode .little [0x03, 0x10, 0x80, 0, 0, 0, 0, 0, 0, 0] = .ok (.int (.imm 0x80), 10) := by decide
theorem test_decode_mov :
    decode .little [0xF4, 0x04, 0x20, 0x00, 0x30, 0, 0, 0, 0, 0, 0, 0x20, 0x00, 0x40, 0, 0, 0, 0, 0, 0] =
      .ok (.mov .d (.mem 0x3000) (.mem 0x4000), 20) := by decide
theorem test_decode_mov_word :
    decode .little [0xF2, 0x04, 0x08, 0x03] = .ok (.mov .w (.reg 8) (.reg 3), 4) := by decide
theorem test_decode_push :
    decode .little [0xF2, 0x05, 0x00] = .ok (.push .w (.reg 0), 3) := by decide
theorem test_decode_pop :
    decode .little [0x06, 0x20, 0x00, 0x30, 0, 0, 0, 0, 0, 0] = .ok (.pop .q (.mem 0x3000), 10) := by
  decide
theorem test_decode_cpuid : decode .little [0x07] = .ok (.cpuid, 1) := by decide
theorem test_decode_call : decode .little [0x08, 0x07] = .ok (.call (.reg 7), 2) := by decide
theorem test_decode_ret : decode .little [0x09] = .ok (.ret, 1) := by decide
theorem test_decode_jmp :
    decode .little [0x0A, 0x20, 0x00, 0x20, 0, 0, 0, 0, 0, 0] = .ok (.jmp (.mem 0x2000), 10) := by
  decide
theorem test_decode_sysexit : decode .little [0x0B] = .ok (.sysexit, 1) := by decide
theorem test_decode_cmp :
    decode .little [0xF1, 0x0C, 0x02, 0x10, 0x7F] = .ok (.cmp .b (.reg 2) (.imm 0x7F), 5) := by decide
theorem test_decode_jne :
    decode .little [0x0D, 0x10, 0x00, 0x10, 0, 0, 0, 0, 0, 0] = .ok (.jne (.imm 0x1000), 10) := by
  decide
theorem test_decode_brk : decode .little [0xCC] = .ok (.brk, 1) := by decide
/-- E9 to E15, E17: decode faults. -/
theorem test_decode_faults :
    decode .little [0x0E] = .error (.reservedOpcode 0x0E) ∧
    decode .little [0xFF] = .error (.reservedOpcode 0xFF) ∧
    decode .little [0xF4, 0x00] = .error (.sizePrefixNotAllowed .nop) ∧
    decode .little [0xF4, 0xF4, 0x04, 0x00, 0x01] = .error (.reservedOpcode 0xF4) ∧
    decode .little [0x04, 0x10, 0x05, 0, 0, 0, 0, 0, 0, 0, 0] = .error .kindNotAccepted ∧
    decode .little [0x04, 0x00, 0x30] = .error (.reservedDescriptor 0x30) ∧
    decode .little [0x06, 0x10, 0x01, 0, 0, 0, 0, 0, 0, 0] = .error .kindNotAccepted ∧
    decode .little [0xF4, 0x0A, 0x00] = .error (.sizePrefixNotAllowed .jmp) := by decide
/-- The table word of `MOV RAX, RBX` (E2): first byte in bits 7..0. -/
theorem test_table_word :
    decodeTableWord 24 0x010004 = some (.mov .q (.reg 0) (.reg 1)) ∧
      decodeTableWord 8 0x0B = some .sysexit := by decide
/-- The word is fetched and run as the first instruction after reset. -/
theorem test_fetch_word :
    answers (step (State.reset.withFetchWord 8 0x0B)) (fun t => t.run == .shutdown && t.pc == 1) =
      true := by decide
/-- S1 to S3, M8: the assembler text. -/
theorem test_asm_text :
    asmText (.mov .d (.reg 0) (.imm 14)) = "MOV EAX, 0xE" ∧
    asmText (.mov .d (.reg 0) (.reg 1)) = "MOV EAX, EBX" ∧
    asmText (.mov .d (.mem 0xFF) (.reg 0)) = "MOV [0xFF], EAX" ∧
    asmText (.mov .b (.mem 0x2010) (.imm 0x5A)) = "O8 MOV [0x2010], 0x5A" := by decide

/-! ### One step of each instruction -/

/-- Y1. -/
theorem test_nop : answers (step (boot [0x00])) (fun t => t.pc == 0x1001 && t.run == .running) = true := by
  decide
/-- Y13. -/
theorem test_nop_single_step :
    answers (step (withFlags (boot [0x00]) false false false true false false))
      (trapIs 12 0x1000 0x1001) = true := by decide
/-- Y2. -/
theorem test_ud : answers (step (boot [0x01])) (trapIs 4 0x1000 0x1001) = true := by decide
/-- Y3, its first step. -/
theorem test_hlt :
    answers (step (boot [0x02])) (fun t => t.pc == 0x1001 && t.run == .halted) = true := by decide
/-- Y3, its second step: external interrupt 40 ends the halt. -/
theorem test_hlt_interrupt :
    answers (step { withFlags (boot []) false false false false true false with
      pc := 0x1001, run := .halted, inputs := [some 8] }) (trapIs 40 0x1001 0x1001) = true := by decide
/-- Y6. -/
theorem test_int :
    answers (step ((boot [0x03, 0x00]).setReg 0 0xFF)) (trapIs 255 0x1000 0x1002) = true := by decide
/-- Y7, Y8. -/
theorem test_int_refused :
    refuses (step ((boot [0x03, 0x00]).setReg 0 0x100)) .intCodeOutOfRange = true ∧
      refuses (step ((boot [0x03, 0x00]).setReg 0 20)) .intCodeReserved = true := by decide
/-- S1: the upper half is kept. -/
theorem test_mov_imm :
    answers (step ((boot [0xF4, 0x04, 0x00, 0x10, 0x0E, 0, 0, 0]).setReg 0 0xFFFFFFFFFFFFFFFF))
      (fun t => t.reg 0 == 0xFFFFFFFF0000000E && t.pc == 0x1008) = true := by decide
/-- S3: a misaligned doubleword store, least significant byte first. -/
theorem test_mov_store :
    answers (step ((boot [0xF4, 0x04, 0x20, 0xFF, 0, 0, 0, 0, 0, 0, 0, 0]).setReg 0 0x99999999A1B2C3D4))
      (fun t => bytesAre 0xFE [0, 0xD4, 0xC3, 0xB2, 0xA1, 0] t && t.pc == 0x100C) = true := by decide
/-- K1, and K1' under pre_decrement. -/
theorem test_push :
    answers (step (((boot [0x05, 0x00]).setReg 0 0x1122334455667788).setReg 7 0x8000))
      (fun t => bytesAre 0x8000 [0x88, 0x77, 0x66, 0x55, 0x44, 0x33, 0x22, 0x11] t &&
        t.reg 7 == 0x7FF8) = true := by decide
/-- K5: PUSH RSP stores the old RSP. -/
theorem test_push_rsp :
    answers (step ((boot [0x05, 0x07]).setReg 7 0x8000))
      (fun t => bytesAre 0x8000 [0x00, 0x80, 0, 0] t && t.reg 7 == 0x7FF8) = true := by decide
/-- K2. -/
theorem test_pop :
    answers (step (((boot [0x06, 0x01]).placeBytes 0x8000
      [0x88, 0x77, 0x66, 0x55, 0x44, 0x33, 0x22, 0x11]).setReg 7 0x7FF8))
      (fun t => t.reg 1 == 0x1122334455667788 && t.reg 7 == 0x8000) = true := by decide
/-- K6: POP RSP ends with the popped value. -/
theorem test_pop_rsp :
    answers (step (((boot [0x06, 0x07]).placeBytes 0x8000 [0x00, 0x90]).setReg 7 0x7FF8))
      (fun t => t.reg 7 == 0x9000) = true := by decide
/-- A supplied CPUID_FN entry, two writes to one register: the last one stays (R144, by hand). -/
theorem test_cpuid :
    answers (step { boot [0x07] with cfg := { Config.default with
      cpuid := [⟨0, false, false, [(1, 5), (1, 6)]⟩] } })
      (fun t => t.reg 1 == 6 && t.pc == 0x1001) = true := by decide
/-- Y10. -/
theorem test_cpuid_default : refuses (step (boot [0x07])) .cpuidNotSpecified = true := by decide
/-- T4. -/
theorem test_call :
    answers (step ((boot [0x08, 0x10, 0x00, 0x20, 0, 0, 0, 0, 0, 0]).setReg 7 0x8000))
      (fun t => bytesAre 0x8000 [0x0A, 0x10, 0, 0] t && t.reg 7 == 0x7FF8 && t.pc == 0x2000) =
      true := by decide
/-- T6: the operand is read after the push. -/
theorem test_call_rsp :
    answers (step ((boot [0x08, 0x07]).setReg 7 0x8000)) (fun t => t.pc == 0x7FF8) = true := by decide
/-- T5. -/
theorem test_ret :
    answers (step (((boot [0x09]).placeBytes 0x8000 [0x0A, 0x10]).setReg 7 0x7FF8))
      (fun t => t.pc == 0x100A && t.reg 7 == 0x8000) = true := by decide
/-- T2, an odd target. -/
theorem test_jmp :
    answers (step ((boot [0x0A, 0x00]).setReg 0 0x1235)) (fun t => t.pc == 0x1235) = true := by decide
/-- T3. -/
theorem test_jmp_mem :
    answers (step ((boot [0x0A, 0x20, 0x00, 0x20, 0, 0, 0, 0, 0, 0]).placeBytes 0x2000 [0x00, 0x30]))
      (fun t => t.pc == 0x3000) = true := by decide
/-- Y11. -/
theorem test_sysexit :
    answers (step (boot [0x0B])) (fun t => t.run == .shutdown && t.pc == 0x1001) = true := by decide
/-- A8: only the low halves are compared. -/
theorem test_cmp :
    answers (step (((boot [0xF4, 0x0C, 0x00, 0x01]).setReg 0 0x0000000100000005).setReg 1
      0x0000000200000005))
      (fun t => t.flags == ⟨false, true, false, false, false, false, false, false⟩) = true := by decide
/-- R203, row by row: va, vb, then ZF, CF, SF, OF. -/
theorem test_cmp_table :
    ([(0x00, 0x00, true, false, false, false), (0x05, 0x05, true, false, false, false),
      (0x80, 0x80, true, false, false, true), (0x05, 0x03, false, false, false, false),
      (0x03, 0x05, false, true, true, true), (0x00, 0x01, false, true, true, true),
      (0x80, 0x01, false, false, false, true), (0x7F, 0xFF, false, true, true, true),
      (0xFF, 0x7F, false, false, true, false), (0xFF, 0x01, false, false, true, false),
      (0x00, 0x80, false, true, true, true)] : List (Byte × Byte × Bool × Bool × Bool × Bool)).all
      (fun (va, vb, z, c, n, v) =>
        compareFlags Launch.clearFlags va vb == ⟨c, z, n, false, false, v, false, false⟩) = true := by
  decide
/-- T7. -/
theorem test_jne :
    answers (step (boot [0x0D, 0x10, 0x00, 0x30, 0, 0, 0, 0, 0, 0])) (fun t => t.pc == 0x3000) =
      true := by decide
/-- T8. -/
theorem test_jne_equal :
    answers (step (withFlags (boot [0x0D, 0x10, 0x00, 0x30, 0, 0, 0, 0, 0, 0])
      false true false false false false)) (fun t => t.pc == 0x100A) = true := by decide
/-- Y12. -/
theorem test_brk : answers (step (boot [0xCC])) (trapIs 2 0x1000 0x1001) = true := by decide
/-- Y12 under CC_IS_BREAKPOINT = false. -/
theorem test_brk_reserved :
    answers (step { boot [0xCC] with cfg := { Config.default with ccIsBreakpoint := false } })
      (trapIs 4 0x1000 0x1000) = true := by decide

/-! ### Memory and modes -/

/-- M9, M10, M11. -/
theorem test_memory_stops :
    answers (exec (.mov .q (.reg 0) (.mem 0x9000)) (running 11 (reserve (boot []))))
      (trapIs 11 0x1000 0x100B) = true ∧
    faults (exec (.mov .q (.reg 0) (.mem 0x9000))
      { boot [] with cfg := { Config.default with memPresent := [⟨0, 0x9000⟩] } }) .noMemory = true ∧
    faults (exec (.mov .q (.reg 0) (.mem 0xFFFFFFFFFFFFFFFC)) (boot [])) .accessWraps = true := by
  decide
/-- R80: the byte a store has written is refused by default and seen under coherent. -/
theorem test_written_byte :
    refuses (step { (boot []).storeBytes 0x1000 [0x00] with pc := 0x1000 }) .selfModifyingCode = true ∧
    answers (step { (boot []).storeBytes 0x1000 [0x01] with
      cfg := { Config.default with smcPolicy := .coherent } }) (trapIs 4 0x1000 0x1001) = true := by
  decide

/-- R101, R231: a step on a platform whose handler goes on at 0x4000 + code; RC's code for an unlisted byte
goes there too, and a step without a trap does not. -/
def vectoring : Platform :=
  ⟨referenceCodec, fun s c _ _ => .next (s.setPc (0x4000 + c.setWidth 64))⟩
theorem test_trap_handler :
    answers (stepOn vectoring (boot [0x01])) (fun t => t.run == .running && t.pc == 0x4004) = true ∧
    answers (stepOn vectoring (boot [0x0E])) (fun t => t.run == .running && t.pc == 0x4004) = true ∧
    answers (stepOn vectoring (boot [0x00])) (fun t => t.pc == 0x1001) = true := by decide
/-- R101: a codec that reads the byte after the one at the address runs that instruction. -/
theorem test_codec :
    answers (stepOn ⟨⟨fun _ f k => opcodeByteFrom f (k + 1), fun bo f k => decodeFrom bo f (k + 1)⟩,
      terminalHandler⟩ (boot [0x00, 0x0B])) (fun t => t.run == .shutdown) = true := by decide
/-- R63, R201 by hand: 0x80 less 1 is 0x7F; signed, -128 less 1 is 127 - 256. -/
theorem test_signed_difference :
    signedValue (0x80 : Byte) = -128 ∧ signedValue (0xFF : Byte) = -1 ∧
    signedValue ((0x80 : Byte) - 1) = 127 ∧ signedValue (0x00 : Byte) = 0 := by decide

/-! ### Witnesses: hypotheses of each statement met by concrete states, at the boundaries of each clause -/

theorem witness_DecodeOfEncode :
    (Instr.mov .w (.mem 0xFFFFFFFFFFFFFFFF) (.imm 0xFFFF)).WellFormed ∧
      (Instr.push .b (.imm 0xFF)).WellFormed := by decide

theorem witness_EncodeOfDecode :
    decode .big [0xF2, 0x05, 0x10, 0x12, 0x34] = .ok (.push .w (.imm 0x1234), 5) := by decide

theorem witness_LaterBytesDoNotMatter :
    decode .little [0x00] ≠ .error .needMore ∧ decode .little [0x0E] ≠ .error .needMore := by decide

/-- The first byte and the last of a 20-byte instruction. -/
theorem witness_EveryByteIsNeeded :
    (Instr.cmp .d (.mem 0) (.mem 0)).WellFormed ∧ 0 < (Instr.cmp .d (.mem 0) (.mem 0)).length ∧
      19 < (Instr.cmp .d (.mem 0) (.mem 0)).length := by decide

/-- Bytes that lie at `pc` can be fetched. -/
theorem fetches_of (s : State) (bs : List Byte)
    (h : ∀ j (hj : j < bs.length), s.fetchState.fetchByte (s.pc.toNat + j) = .ok bs[j]) :
    s.fetchState.fetches s.pc.toNat bs := h

theorem witness_ReservedOpcodeTraps :
    (boot [0x0E]).run = .running ∧ (boot [0x0E]).accepted = none ∧
    (boot [0x0E]).fetchState.fetches (boot [0x0E]).pc.toNat [0x0E] ∧
    (boot [0xCB]).fetchState.fetches (boot [0xCB]).pc.toNat [0xCB] ∧
    (boot [0xCD]).fetchState.fetches (boot [0xCD]).pc.toNat [0xCD] ∧
    (boot [0xF4, 0xF1]).fetchState.fetches (boot [0xF4, 0xF1]).pc.toNat [0xF4, 0xF1] :=
  ⟨rfl, rfl, fetches_of _ _ (by decide), fetches_of _ _ (by decide), fetches_of _ _ (by decide),
    fetches_of _ _ (by decide)⟩

/-- Each form of R112, with the first and the last reserved descriptor. -/
theorem witness_MalformedBytesTrap :
    MalformedRc .little [0xF4, 0x00] ∧ MalformedRc .little [0x03, 0x11] ∧
    MalformedRc .little [0xF1, 0x06, 0xFF] ∧ MalformedRc .little [0x04, 0x00, 0x21] ∧
    MalformedRc .little [0xF1, 0x06, 0x10, 0x05] ∧
    (boot [0x04, 0x00, 0x21]).fetchState.fetches (boot [0x04, 0x00, 0x21]).pc.toNat
      [0x04, 0x00, 0x21] :=
  ⟨.sizePrefix 0xF4 .nop (by decide) rfl,
    .operand .int 0x11 (by unfold reservedDescriptorByte; decide) (by decide),
    .sizedOperand .b .pop 0xFF (by unfold reservedDescriptorByte; decide) rfl,
    .operand2 .q .mov (.reg 0) 0x21 (by unfold reservedDescriptorByte; decide) (by decide),
    .immediateDest .b .pop 5 (by decide), fetches_of _ _ (by decide)⟩

theorem witness_StepRunsDecoded :
    (boot [0x05, 0x07]).run = .running ∧ (boot [0x05, 0x07]).accepted = none ∧
    (boot [0x05, 0x07]).fetchState.fetches (boot [0x05, 0x07]).pc.toNat [0x05, 0x07] ∧
    decode (boot [0x05, 0x07]).cfg.byteOrder [0x05, 0x07] = .ok (.push .q (.reg 7), 2) :=
  ⟨rfl, rfl, fetches_of _ _ (by decide), by decide⟩

/-- NOP with TF = 1 and with TF = 0, HLT with TF = 1. -/
theorem witness_SingleStepAfterCompletion :
    answers (exec .nop (withFlags (boot []) false false false true false false))
      (fun t => t.run == .running && t.flags.TF) = true ∧
    answers (exec .nop (boot [])) (fun t => !t.flags.TF) = true ∧
    answers (exec .hlt (withFlags (boot []) false false false true false false))
      (fun t => t.run != .running) = true := by decide

/-- The first and the last maskable code, running and halted, IF = 1 and IF = 0. -/
theorem witness_ExternalInterrupt :
    let s := { withFlags (boot [0x00]) false false false false true false with inputs := [some 0] }
    let h := { boot [0x00] with inputs := [some 223], run := .halted }
    (s.run = .running ∧ s.presented = some 0 ∧ s.flags.IF = true) ∧
    (h.run = .halted ∧ h.presented = some 223 ∧ h.flags.IF = false) ∧
    answers (step s) (trapIs 32 0x1000 0x1000) = true := by decide

/-- A halt that waits, with a masked presentation; it is stuck. -/
theorem witness_HaltWaits_StuckHaltNeverEnds :
    let s := { boot [] with run := .halted, inputs := [some 5] }
    s.run = .halted ∧ s.accepted = none ∧ s.flags.IF = false := by decide

theorem witness_FinalStatesStay :
    ((boot []).setRun .shutdown).run = .shutdown ∧
    ∃ r, ((boot []).setRun (.trapped ⟨4, 0, 1⟩)).run = .trapped r := ⟨rfl, _, rfl⟩

/-- A run that ends, in one step. -/
theorem witness_EndsOnlyBySysexit :
    (boot [0x0B]).run ≠ .shutdown ∧ (boot [0x0B]).fetchState.fetchDecode = .ok (.sysexit, 1) ∧
    answers (Host.Core.run Sys2Proof.core 1 (boot [0x0B])) (fun t => t.run == .shutdown) = true := by
  decide

theorem witness_TrapsArePrecise :
    answers (exec .ud (running 1 (boot []))) (trapIs 4 0x1000 0x1001) = true ∧
    answers (exec .brk (running 1 { boot [] with
      cfg := { Config.default with ccIsBreakpoint := false } })) (trapIs 4 0x1000 0x1000) = true ∧
    (boot [0xFF]).fetchState.fetchDecode = .error (.raise 4) := by decide

/-- One state for each cause of a trap. -/
theorem witness_RaisableCodes :
    answers (step (boot [0x01])) (trapIs 4 0x1000 0x1001) = true ∧
    answers (step (boot [0xCC])) (trapIs 2 0x1000 0x1001) = true ∧
    answers (step (reserve { boot [] with pc := 0x9000 })) (trapIs 11 0x9000 0x9000) = true ∧
    answers (step (withFlags (boot [0x00]) false false false true false false))
      (trapIs 12 0x1000 0x1001) = true ∧
    answers (step { withFlags (boot [0x00]) false false false false true false with
      inputs := [some 18] }) (trapIs 50 0x1000 0x1000) = true ∧
    answers (step ((boot [0x03, 0x00]).setReg 0 5)) (trapIs 5 0x1000 0x1002) = true := by decide

/-- A state that satisfies the invariant with a byte listed and a byte written, and takes a step. -/
theorem witness_StepKeepsInvariant :
    ((boot [0x05, 0x00]).storeBytes 0x8000 [0x01]).Inv ∧
    answers (step ((boot [0x05, 0x00]).storeBytes 0x8000 [0x01])) (fun t => t.run == .running) =
      true := by
  refine ⟨⟨by decide, by decide, by decide, by decide, by decide, fun t h => ?_⟩, by decide⟩
  cases h

theorem witness_ResetHasInvariant :
    Memory.wf [(0, 0x0B), (2 ^ 64 - 1, 1)] = true ∧
      Memory.inSpace [(0, 0x0B), (2 ^ 64 - 1, 1)] = true := by decide

/-- A step, with a reserved and an absent address. -/
theorem witness_FixedStateStays_ReservedMemoryStays_WrittenRecordIsComplete :
    let s := { reserve ((boot [0x05, 0x00]).setReg 7 0x8000) with
      cfg := { Config.default with memPresent := [⟨0, 0x9000⟩], reservedMem := [⟨0x9000, 16⟩] } }
    answers (step s) (fun t => t.run == .running) = true ∧ s.isReserved 0x900F = true ∧
      s.isReserved 0x8FFF = false ∧ s.isPresent 0x9010 = false := by decide

/-- A NOP; and a halted state with a CPUID at `pc`, for which the premise asks nothing. -/
theorem witness_HiddenStateIsNotRead :
    ((boot [0x00]).run = .running ∧ (boot [0x00]).accepted = none ∧
      ∀ n, (boot [0x00]).fetchState.fetchDecode ≠ .ok (.cpuid, n)) ∧
    ((boot [0x07]).setRun .halted).run ≠ .running ∧
    (boot [0x07]).fetchState.fetchDecode = .ok (.cpuid, 1) := by
  refine ⟨⟨rfl, rfl, fun n h => ?_⟩, by decide, by decide⟩
  rw [show (boot [0x00]).fetchState.fetchDecode = .ok (.nop, 1) from by decide] at h
  cases h

/-- RC on a CPUID, on a malformed instruction, and the unlisted bytes at the ends of their two ranges, behind a prefix too. -/
theorem witness_CodecIsAParameter :
    let read := fun bs => referenceCodec.decode .little (boot bs).fetchState.fetchByte 0x1000
    let op := fun bs => referenceCodec.opcodeByte .little (boot bs).fetchState.fetchByte 0x1000
    (boot []).run = .running ∧ (boot []).accepted = none ∧ (boot []).pc.toNat = 0x1000 ∧
    read [0x07] = .ok (.cpuid, 1) ∧ read [0xF4, 0x00] = .error (.raise 4) ∧ op [0x0E] = .ok 0x0E ∧
    op [0xCB] = .ok 0xCB ∧ op [0xCD] = .ok 0xCD ∧ op [0xF1, 0xFF] = .ok 0xFF := by decide

/-- A trap, a next state without one, a fault and a refusal, running; an interrupt that ends a halt; a shutdown
and a terminal trap. -/
theorem witness_TrapHandlerDelivers :
    let go := stepOn ⟨referenceCodec, terminalHandler⟩
    answers (go (boot [0x01])) (trapIs 4 0x1000 0x1001) = true ∧
    answers (go (boot [0x02])) (fun t => t.run == .halted) = true ∧
    faults (go { boot [0x00] with cfg := { Config.default with memPresent := [] } }) .noMemory = true ∧
    refuses (go (boot [0x07])) .cpuidNotSpecified = true ∧
    answers (go { withFlags (boot []) false false false false true false with
      run := .halted, inputs := [some 0] }) (trapIs 32 0x1000 0x1000) = true ∧
    ((boot []).setRun .shutdown).run = .shutdown ∧
    ((boot []).setRun (.trapped ⟨4, 0, 1⟩)).run = .trapped ⟨4, 0, 1⟩ := by decide

/-- Accessible up to the last byte of the address space, and each reason of the check. -/
theorem witness_MemoryPrimitives :
    (boot []).check 0xFFFFFFFFFFFFFFF8 8 = .ok () ∧ (boot []).mem.wf = true ∧
    (boot []).check 0xFFFFFFFFFFFFFFF9 8 = .error (.fault .accessWraps) ∧
    { boot [] with amode := .virtual }.check 0 1 = .error (.refuse .modeNotModelled) ∧
    (reserve (boot [])).check 0x8FF9 8 = .error (.raise 11) ∧
    { boot [] with cfg := { Config.default with memPresent := [⟨0, 8⟩] } }.check 1 8 =
      .error (.fault .noMemory) := by decide

theorem witness_ReadAfterWrite :
    (boot []).mem.wf = true ∧ (boot []).cfg.byteOrder = .little ∧
    ∃ t, (boot []).memWrite .d 0x2000 0x44332211 = .ok t := ⟨by decide, rfl, _, rfl⟩

/-- K7, K8 and the wrapping POP, CALL and RET. -/
theorem witness_TopOfTheAddressSpace :
    (0xFFFFFFFFFFFFFFFC : Word).toNat + Size.q.bytes > 2 ^ 64 ∧
    answers (exec (.push .q (.reg 0)) ((boot []).setReg 7 4))
      (fun t => t.run == .running && t.reg 7 == 0xFFFFFFFFFFFFFFFC) = true ∧
    answers (exec (.pop .q (.reg 0)) ((boot []).setReg 7 0xFFFFFFFFFFFFFFFC))
      (fun t => t.run == .running && t.reg 7 == 4) = true ∧
    answers (exec (.call (.imm 0x2000)) ((boot []).setReg 7 4))
      (fun t => t.run == .running && t.reg 7 == 0xFFFFFFFFFFFFFFFC) = true ∧
    answers (exec .ret ((boot []).setReg 7 0xFFFFFFFFFFFFFFFC))
      (fun t => t.run == .running && t.reg 7 == 4) = true := by decide

theorem witness_ProtectionIsTheOnlyException :
    (reserve (boot [])).amode = .direct ∧ (reserve (boot [])).mmodel = .flat ∧
    (0x8FF9 : Word).toNat + Size.q.bytes ≤ 2 ^ 64 ∧
    (reserve (boot [])).isReserved (0x8FF9 + 7) = true := by
  decide

/-- A state is accessible at an address. -/
theorem accessible_of (s : State) (a : Word) (n : Nat)
    (h : a.toNat + n ≤ 2 ^ 64 ∧ s.amode = .direct ∧ s.mmodel = .flat ∧
      ∀ k, k < n → s.isReserved (a.toNat + k) = false ∧ s.isPresent (a.toNat + k) = true) :
    s.accessible a n := h

/-- A written byte and one not written, under refuse; and coherent. -/
theorem witness_FetchOfWrittenBytes :
    let s := (boot []).storeBytes 0x1000 [0x01]
    let c := { s with cfg := { Config.default with smcPolicy := .coherent } }
    s.accessible 0x1000 1 ∧ s.accessible 0x1001 1 ∧ c.accessible 0x1000 1 ∧
    s.cfg.smcPolicy = .refuse ∧ c.cfg.smcPolicy = .coherent ∧
    0x1000 ∈ s.written ∧ 0x1001 ∉ s.written ∧ s.run = .running ∧ s.accepted = none ∧ s.pc = 0x1000 ∧
    ∃ t, (boot []).memWrite .b 0x1000 0x01 = .ok t :=
  ⟨accessible_of _ _ _ (by decide), accessible_of _ _ _ (by decide), accessible_of _ _ _ (by decide),
    rfl, rfl, by decide, by decide, rfl, rfl, rfl, _, rfl⟩

theorem witness_OtherModesAreRefused :
    refuses (step { boot [0x00] with amode := .virtual }) .modeNotModelled = true ∧
    refuses (step { boot [0x00] with mmodel := .segmented }) .modeNotModelled = true := by decide

/-- `JMP` with its opcode in the last byte of the address space. -/
theorem witness_FetchAcrossTheTop :
    let s := { boot [] with pc := 0xFFFFFFFFFFFFFFFF, mem := [(2 ^ 64 - 1, 0x0A)] }
    s.run = .running ∧ s.accepted = none ∧ (Instr.jmp (.reg 0)).WellFormed ∧
    1 < (Instr.jmp (.reg 0)).length ∧ s.pc.toNat + 1 = 2 ^ 64 ∧
    s.fetchState.fetches s.pc.toNat ((encode s.cfg.byteOrder (.jmp (.reg 0))).take 1) := by
  exact ⟨rfl, rfl, by decide, by decide, by decide, fetches_of _ _ (by decide)⟩

/-- An access that touches reserved memory. -/
theorem hits_of (s : State) (a : Word) (n : Nat)
    (h : a.toNat + n ≤ 2 ^ 64 ∧ s.amode = .direct ∧ s.mmodel = .flat ∧
      s.isReserved (a.toNat + (n - 1)) = true ∧ 0 < n) : s.hitsReserved a n :=
  ⟨h.1, h.2.1, h.2.2.1, n - 1, by omega, h.2.2.2.1⟩

/-- `JMP [a]` whose address is cut off after two bytes, the third at the top of the space, absent, written;
and no byte at all. -/
theorem witness_FetchStopsTheStep :
    let bs : List Byte := [0x0A, 0x20]
    let top := ({ State.reset with pc := 0xFFFFFFFFFFFFFFFE }).placeBytes 0xFFFFFFFFFFFFFFFE bs
    let absent := { boot bs with cfg := { Config.default with memPresent := [⟨0, 0x1002⟩] } }
    let written := (boot bs).storeBytes 0x1002 [0x00]
    decode .little bs = .error .needMore ∧ decode .little [] = .error .needMore ∧
    (top.fetchState.fetches top.pc.toNat bs ∧ top.pc.toNat + bs.length = 2 ^ 64) ∧
    (absent.fetchState.fetches absent.pc.toNat bs ∧ absent.isReserved 0x1002 = false ∧
      absent.isPresent 0x1002 = false) ∧
    (written.fetchState.fetches written.pc.toNat bs ∧ written.accessible 0x1002 1 ∧
      0x1002 ∈ written.written) ∧
    faults (step { absent with pc := 0x1002 }) .noMemory = true :=
  ⟨by decide, by decide, ⟨fetches_of _ _ (by decide), by decide⟩,
    ⟨fetches_of _ _ (by decide), by decide, by decide⟩,
    ⟨fetches_of _ _ (by decide), accessible_of _ _ _ (by decide), by decide⟩, by decide⟩

/-- The last byte of the access is the first reserved one: operand, push slot, pop slot; fetch of the first
byte and of the second. -/
theorem witness_ReservedMemoryTraps :
    (reserve (boot [])).hitsReserved 0x8FF9 8 ∧ (reserve (boot [])).hitsReserved 0x8FFF 2 ∧
    (reserve (boot [])).canRead .w (.reg 0) ∧
    ((reserve (boot [])).setReg 7 0x8FF9).hitsReserved
      (((reserve (boot [])).setReg 7 0x8FF9).pushAddr .q) 8 ∧
    ((reserve (boot [])).setReg 7 0x8000).accessible
      (((reserve (boot [])).setReg 7 0x8000).pushAddr .q) 8 ∧
    ((reserve (boot [])).setReg 7 0x8FF1).hitsReserved
      (((reserve (boot [])).setReg 7 0x8FF1).popAddr .q) 8 ∧
    ((reserve (boot [])).setReg 7 0x8000).accessible
      (((reserve (boot [])).setReg 7 0x8000).popAddr .q) 8 ∧
    { reserve (boot []) with pc := 0x9000 }.hitsReserved 0x9000 1 ∧
    ({ reserve (boot []) with pc := 0x8FFF }.placeBytes 0x8FFF [0x0A]).fetchState.fetches 0x8FFF [0x0A] ∧
    decode .little [0x0A] = .error .needMore :=
  ⟨hits_of _ _ _ (by decide), hits_of _ _ _ (by decide), trivial, hits_of _ _ _ (by decide),
    accessible_of _ _ _ (by decide), hits_of _ _ _ (by decide), accessible_of _ _ _ (by decide),
    hits_of _ _ _ (by decide), fetches_of _ _ (by decide), by decide⟩

/-- The second byte of a `JMP` in reserved memory. -/
theorem test_fetch_reserved :
    answers (step ({ reserve (boot []) with pc := 0x8FFF }.placeBytes 0x8FFF [0x0A]))
      (trapIs 11 0x8FFF 0x8FFF) = true := by decide

/-- A step that runs the NOP, the UD, the BRK at `pc`, BRK under both parameters. -/
theorem witness_NopOnlyAdvances_UdRaises_BrkRaises :
    (boot [0x00]).run = .running ∧ (boot [0x00]).accepted = none ∧ (boot [0x00]).flags.TF = false ∧
    (boot [0x00]).fetchState.fetches (boot [0x00]).pc.toNat [0x00] ∧
    (boot [0x01]).fetchState.fetches (boot [0x01]).pc.toNat [0x01] ∧
    (boot [0xCC]).fetchState.fetches (boot [0xCC]).pc.toNat [0xCC] ∧
    (boot [0xCC]).cfg.ccIsBreakpoint = true ∧
    { boot [0xCC] with cfg := { Config.default with ccIsBreakpoint := false } }.cfg.ccIsBreakpoint =
      false :=
  ⟨rfl, rfl, rfl, fetches_of _ _ (by decide), fetches_of _ _ (by decide), fetches_of _ _ (by decide),
    rfl, rfl⟩

/-- The codes at the ends of each range of R143, and an operand in reserved memory. -/
theorem witness_IntRaises :
    let s := running 10 (reserve (boot []))
    s.canRead .q (.imm 12) ∧ s.hitsReserved 0x9008 8 ∧
    answers (exec (.int (.imm 12)) s) (trapIs 12 0x1000 0x100A) = true ∧
    refuses (exec (.int (.imm 13)) s) .intCodeReserved = true ∧
    refuses (exec (.int (.imm 31)) s) .intCodeReserved = true ∧
    answers (exec (.int (.imm 32)) s) (trapIs 32 0x1000 0x100A) = true ∧
    answers (exec (.int (.imm 255)) s) (trapIs 255 0x1000 0x100A) = true ∧
    refuses (exec (.int (.imm 256)) s) .intCodeOutOfRange = true :=
  ⟨trivial, hits_of _ _ _ (by decide), by decide⟩

theorem witness_CpuidWrites :
    let cfg := { Config.default with cpuid := [⟨7, false, false, [(0, 1), (15, 2)]⟩] }
    cpuidWrites cfg 7 false = some [(0, 1), (15, 2)] ∧ cpuidWrites cfg 8 false = none := by decide

/-- Two states that agree on a register and on nothing else. -/
theorem witness_NarrowRead :
    { boot [0x0B] with run := .halted }.reg 15 = (boot []).reg 15 := by decide

/-- The last bit of the view, the first above it, the last of the register. -/
theorem witness_NarrowWrite : 31 < Size.d.bits ∧ ¬ 32 < Size.d.bits ∧ 63 < 64 := by decide

/-- Operands at the last addresses of the space, and stack slots under both disciplines. -/
theorem witness_data_movement :
    let s := (boot []).setReg 7 0x8000
    let p := { s with cfg := { Config.default with stackDiscipline := .preDecrement } }
    s.mem.wf = true ∧ p.mem.wf = true ∧ s.canRead .q (.mem 0xFFFFFFFFFFFFFFF8) ∧
    s.accessible 0xFFFFFFFFFFFFFFFE 2 ∧ s.accessible (s.pushAddr .q) 8 ∧
    p.accessible (p.pushAddr .d) 4 ∧ s.accessible (s.popAddr .q) 8 ∧ p.accessible (p.popAddr .b) 1 ∧
    s.cfg.stackDiscipline = .postDecrement ∧ p.cfg.stackDiscipline = .preDecrement :=
  ⟨by decide, by decide, accessible_of _ _ _ (by decide), accessible_of _ _ _ (by decide),
    accessible_of _ _ _ (by decide), accessible_of _ _ _ (by decide), accessible_of _ _ _ (by decide),
    accessible_of _ _ _ (by decide), rfl, rfl⟩

/-- A push that completes, and a call that completes: the states PopUndoesPush and RetReturnsFromCall
speak of (for the latter with `u` the state after the call). -/
theorem witness_PopUndoesPush_RetReturnsFromCall :
    let s := (boot []).setReg 7 0x8000
    s.mem.wf = true ∧ s.run = .running ∧
    answers (exec (.push .w (.reg 7)) s) (fun t => t.run == .running) = true ∧
    answers (exec (.call (.reg 7)) s) (fun t => t.run == .running) = true := by decide

/-- CALL, RET, JMP, JNE, CMP: the slot and a memory operand can be read; JNE with ZF = 0 and ZF = 1. -/
theorem witness_control_transfer_and_compare :
    let s := (boot []).setReg 7 0x8000
    let z := withFlags s false true false false false false
    s.mem.wf = true ∧ s.accessible (s.pushAddr .q) 8 ∧ s.accessible (s.popAddr .q) 8 ∧
    s.canRead .q (.mem 0x8000) ∧ s.canRead .w (Dest.asSource (.mem 0x2001)) ∧
    s.flags.ZF = false ∧ z.flags.ZF = true ∧ z.canRead .q (.reg 0) :=
  ⟨by decide, accessible_of _ _ _ (by decide), accessible_of _ _ _ (by decide),
    accessible_of _ _ _ (by decide), accessible_of _ _ _ (by decide), rfl, rfl, trivial⟩

end Sys2Proof.Tests
end

section
/-! The register views (R22, R23): what a narrow read returns, and what a narrow write leaves in the
register, in the other registers and in the count of free values. -/

namespace Sys2Proof.Machine

@[simp] theorem readView_getLsbD (s : State) {sz : Size} (r : Reg) {k : Nat} (hk : k < sz.bits) :
    (s.readView sz r).getLsbD k = (s.reg r).getLsbD k := by
  simp [State.readView, hk]

theorem readView_congr {s t : State} {r : Reg} (h : t.reg r = s.reg r) (sz : Size) :
    t.readView sz r = s.readView sz r :=
  congrArg (BitVec.setWidth sz.bits) h

theorem writeView_narrowResult (s : State) (sz : Size) (r : Reg) (v : BitVec sz.bits) :
    NarrowResult s.cfg.narrowWrite (Config.freeUpper s.draws) sz (s.reg r) v
      ((s.writeView sz r v).reg r) := by
  obtain ⟨w, n, hwrite, -, hbits⟩ := writeView_eq s sz r v
  have hreg : (s.writeView sz r v).reg r = w := by
    rw [hwrite]
    exact State.setReg_reg_same s r w
  rwa [hreg]

theorem writeView_sameRegsBut (s : State) (sz : Size) (r : Reg) (v : BitVec sz.bits) :
    SameRegsBut (fun i => i = r) s (s.writeView sz r v) := by
  obtain ⟨-, -, -, -, -, -, hother⟩ := writeView_fixed s sz r v
  exact hother

/-- Only a write narrower than the register, under havoc, draws a free value (R23, log 9). -/
theorem writeView_draws (s : State) (sz : Size) (r : Reg) (v : BitVec sz.bits) :
    (s.writeView sz r v).draws = drawsAfter s sz := by
  obtain ⟨w, n, hwrite, hdraws, -⟩ := writeView_eq s sz r v
  rw [hwrite, ← hdraws]

/-- Settles O44: the written register, the frame and the count of draws are the three parts of the
rule for `writeView`. -/
theorem narrowWrite : Obligations.NarrowWrite := by
  refine ⟨rfl, fun s sz r v k hk => ⟨?bits, ?frame, ?draws⟩⟩
  case bits => exact writeView_narrowResult s sz r v k hk
  case frame => exact writeView_sameRegsBut s sz r v
  case draws => exact writeView_draws s sz r v

/-- Settles O43: a view is the truncation of its register, so it has the register's low bits and
depends on nothing else. -/
theorem narrowRead : Obligations.NarrowRead := fun s sz r =>
  ⟨fun _ hk => readView_getLsbD s r hk, fun _ hreg => readView_congr hreg sz⟩

end Sys2Proof.Machine
end

section
/-! Memory (R67, R68, R76, R80, R82): the check and its four tests, the bytes of a value that is read or
stored, the fetch of one byte, and the stack pointer after an instruction that pushes or pops. -/

namespace Sys2Proof

/-- Byte `k` of a value, cut out of it, is the byte the layout of R68 has at position `k`. -/
theorem extractLsb'_eq_leBytes_getElem {sz : Size} (v : BitVec sz.bits) {k : Nat}
    (hk : k < (leBytes sz.bytes v.toNat).length) :
    v.extractLsb' (8 * k) 8 = (leBytes sz.bytes v.toNat)[k] := by
  apply BitVec.eq_of_toNat_eq
  rw [leBytes_getElem, BitVec.extractLsb'_toNat, Nat.shiftRight_eq_div_pow, Nat.pow_mul]
  rfl

theorem toNat_ofNat_bytesValue (bo : ByteOrder) (sz : Size) {bs : List Byte}
    (hlen : bs.length = sz.bytes) :
    (BitVec.ofNat sz.bits (bytesValue bo bs)).toNat = bytesValue bo bs := by
  have hlt := bytesValue_lt bo bs
  rw [hlen, pow_bytes_eq] at hlt
  rw [BitVec.toNat_ofNat, Nat.mod_eq_of_lt hlt]

/-- Laying out the value of a byte string gives the string, least significant byte first. -/
theorem leBytes_bytesValue (bo : ByteOrder) {n : Nat} {bs : List Byte} (hlen : bs.length = n) :
    leBytes n (bytesValue bo bs) = orderBytes bo bs := by
  rw [← hlen, ← orderBytes_length bo bs]
  exact leBytes_leValue _

end Sys2Proof

namespace Sys2Proof.Machine

/-! ### The check -/

theorem someReserved_iff (s : State) (a n : Nat) :
    allFrom (fun k => !s.isReserved k) a n = false ↔ ∃ k, k < n ∧ s.isReserved (a + k) = true := by
  simp [allFrom_eq_false]

theorem check_accessWraps {s : State} {a : Word} {n : Nat} (h : a.toNat + n > 2 ^ 64) :
    s.check a n = .error (.fault .accessWraps) := if_pos h

/-- In a modelled mode and below 2^64, the check raises Protection Exception exactly for a reserved byte
and no other code (R76). -/
theorem check_raise_iff_reserved {s : State} {a : Word} {n : Nat} (hamode : s.amode = .direct)
    (hmmodel : s.mmodel = .flat) (hspace : a.toNat + n ≤ 2 ^ 64) (c : Code) :
    s.check a n = .error (.raise c) ↔
      c = Code.protection ∧ ∃ k, k < n ∧ s.isReserved (a.toNat + k) = true := by
  rw [check_raise_iff]
  simp only [hspace, hamode, hmmodel, true_and]

/-! ### The bytes of a value in memory -/

/-- How far above the address of an `n`-byte value its byte `k` lies (R67). -/
def byteOffset (bo : ByteOrder) (n k : Nat) : Nat :=
  match bo with
  | .little => k
  | .big => n - 1 - k

theorem orderBytes_readBytes_getElem (bo : ByteOrder) (m : Memory) (a n : Nat) {k : Nat}
    (hk : k < (orderBytes bo (m.readBytes a n)).length) :
    (orderBytes bo (m.readBytes a n))[k] = m.read (a + byteOffset bo n k) := by
  cases bo with
  | little => exact Memory.readBytes_getElem m a n k hk
  | big =>
    simp only [orderBytes, List.getElem_reverse, Memory.readBytes_getElem, Memory.readBytes_length,
      byteOffset]

/-- Byte `k` of the value that memory holds is the byte of memory at its place (R67, R68). -/
theorem memValue_extractByte (s : State) (sz : Size) (a : Word) {k : Nat} (hk : k < sz.bytes) :
    (s.memValue sz a).extractLsb' (8 * k) 8 =
      s.byteAt (a.toNat + byteOffset s.cfg.byteOrder sz.bytes k) := by
  have hlen : (s.mem.readBytes a.toNat sz.bytes).length = sz.bytes := by simp
  have hlayout : leBytes sz.bytes (s.memValue sz a).toNat =
      orderBytes s.cfg.byteOrder (s.mem.readBytes a.toNat sz.bytes) := by
    rw [State.memValue, toNat_ofNat_bytesValue _ _ hlen, leBytes_bytesValue _ hlen]
  rw [extractLsb'_eq_leBytes_getElem _ (by simpa using hk)]
  simp only [hlayout]
  exact orderBytes_readBytes_getElem _ _ _ _ _

/-- The one byte of a byte-sized value needs no order. -/
theorem memValue_b (s : State) (a : Word) : s.memValue .b a = s.byteAt a.toNat := by
  have hoffset : byteOffset s.cfg.byteOrder Size.b.bytes 0 = 0 := by cases s.cfg.byteOrder <;> rfl
  have hbyte := memValue_extractByte s .b a (k := 0) Nat.one_pos
  simpa [hoffset] using hbyte

theorem storedAt_storeBytes (s : State) (a : Word) (bs : List Byte) :
    StoredAt a bs.length s (s.storeBytes a bs) :=
  ⟨sameMemBut_storeBytes s a bs, fun _ => mem_addrInsertRange⟩

/-- A write that completes stores to its own bytes and records those (R68, R80). -/
theorem memWrite_storedAt {s t : State} {sz : Size} {a : Word} {v : BitVec sz.bits}
    (h : s.memWrite sz a v = .ok t) : StoredAt a sz.bytes s t := by
  obtain ⟨-, rfl⟩ := (memWrite_ok_iff _ _ _ _ _).1 h
  simpa using storedAt_storeBytes s a (valueBytes s.cfg.byteOrder sz.bytes v.toNat)

/-- After a write that completes, the bytes of the value are in memory at their places (R67, R68). -/
theorem memWrite_extractByte {s t : State} {sz : Size} {a : Word} {v : BitVec sz.bits}
    (hwf : s.mem.wf = true) (h : s.memWrite sz a v = .ok t) {k : Nat} (hk : k < sz.bytes) :
    v.extractLsb' (8 * k) 8 =
      t.byteAt (a.toNat + byteOffset s.cfg.byteOrder sz.bytes k) := by
  obtain ⟨-, rfl⟩ := (memWrite_ok_iff _ _ _ _ _).1 h
  have hbyte := memValue_extractByte
    (s.storeBytes a (valueBytes s.cfg.byteOrder sz.bytes v.toNat)) sz a hk
  rwa [memValue_storeBytes hwf] at hbyte

/-- A write changes memory and the record of written bytes, nothing else (R68). -/
theorem memWrite_frame {s t : State} {sz : Size} {a : Word} {v : BitVec sz.bits}
    (h : s.memWrite sz a v = .ok t) :
    t.x = s.x ∧ t.pc = s.pc ∧ t.flags = s.flags ∧ t.run = s.run ∧ SameSystem s t ∧
      t.draws = s.draws := by
  obtain ⟨-, rfl⟩ := (memWrite_ok_iff _ _ _ _ _).1 h
  exact ⟨rfl, rfl, rfl, rfl, ⟨rfl, rfl, rfl, rfl, rfl, rfl⟩, rfl⟩

/-- Settles O27: each test of the check is its test of R68, and the bytes of the value, read or written,
are in memory at `byteOffset`. -/
theorem memoryPrimitives : Obligations.MemoryPrimitives := by
  refine fun s sz a v => ⟨?check, ?stops, ?read, ?write⟩
  case check =>
    exact if_congr Iff.rfl rfl <| if_congr not_and_or.symm rfl <|
      if_congr (someReserved_iff s _ _) rfl <| if_congr (allFrom_eq_false _ _ _) rfl rfl
  case stops =>
    exact fun e he => ⟨(memRead_error_iff s sz a e).2 he, (memWrite_error_iff s sz a v e).2 he⟩
  case read =>
    intro hok
    have haccess := (check_ok_iff _ _ _ _).1 hok
    refine ⟨_, (memRead_ok_iff s sz a _).2 ⟨haccess, rfl⟩, rfl, fun k hk => ?_⟩
    have hbyte := memValue_extractByte s sz a hk
    cases hbo : s.cfg.byteOrder <;> rwa [hbo] at hbyte
  case write =>
    intro hok hwf
    have haccess := (check_ok_iff _ _ _ _).1 hok
    obtain ⟨t, hwrite⟩ : ∃ t, s.memWrite sz a v = .ok t :=
      ⟨_, (memWrite_ok_iff s sz a v _).2 ⟨haccess, rfl⟩⟩
    refine ⟨t, hwrite, fun k hk => ?_, memWrite_storedAt hwrite, memWrite_frame hwrite⟩
    have hbyte := memWrite_extractByte hwf hwrite hk
    cases hbo : s.cfg.byteOrder <;> rwa [hbo] at hbyte

/-- Settles O30: MemRead and MemWrite stop as their check stops. -/
theorem protectionIsTheOnlyException : Obligations.ProtectionIsTheOnlyException := by
  intro s sz a v c hamode hmmodel hspace
  have hcheck := check_raise_iff_reserved hamode hmmodel hspace c
  exact ⟨(memRead_error_iff s sz a _).trans hcheck, (memWrite_error_iff s sz a v _).trans hcheck⟩

/-! ### The fetch of one byte -/

/-- SMC_POLICY stops the fetch of this byte (R80). -/
def State.smcRefuses (s : State) (k : Nat) : Prop := s.cfg.smcPolicy = .refuse ∧ k ∈ s.written

/-- A byte that SMC_POLICY lets pass is fetched as MemRead reads it (R80). -/
theorem fetchByte_eq_memRead {s : State} {a : Word} (h : s.accessible a 1)
    (hsmc : ¬ s.smcRefuses a.toNat) : s.fetchByte a.toNat = s.memRead .b a := by
  have hread := (memRead_ok_iff s .b a _).2 ⟨h, rfl⟩
  have hsmc' : ¬ (s.cfg.smcPolicy = .refuse ∧ s.written.contains a.toNat = true) := by
    simpa [State.smcRefuses] using hsmc
  rw [hread, memValue_b, State.fetchByte, if_neg (Nat.not_le.2 a.isLt), BitVec.ofNat_toNat,
    BitVec.setWidth_eq, check_of_accessible h]
  exact if_neg hsmc'

theorem fetchByte_selfModifyingCode {s : State} {a : Word} (h : s.accessible a 1)
    (hsmc : s.smcRefuses a.toNat) :
    s.fetchByte a.toNat = .error (.refuse .selfModifyingCode) := by
  have hsmc' : s.cfg.smcPolicy = .refuse ∧ s.written.contains a.toNat = true := by
    simpa [State.smcRefuses] using hsmc
  rw [State.fetchByte, if_neg (Nat.not_le.2 a.isLt), BitVec.ofNat_toNat, BitVec.setWidth_eq,
    check_of_accessible h]
  exact if_pos hsmc'

/-- A step whose first byte cannot be fetched is stopped by that byte (R113). -/
theorem step_of_fetchByte_refuse {s : State} {r : Refusal} (hrun : s.run = .running)
    (haccepted : s.accepted = none) (h : s.fetchByte s.pc.toNat = .error (.refuse r)) :
    step s = .refused r := by
  have hdecode : s.fetchState.fetchDecode = .error (.refuse r) :=
    fetchDecode_stop (bs := []) (fun j hj => absurd hj (Nat.not_lt_zero j)) rfl h
  rw [step_running hrun haccepted, hdecode]
  rfl

/-- Settles O31: what a fetch answers turns on `smcRefuses` alone, and each premise of the four clauses
decides it. -/
theorem fetchOfWrittenBytes : Obligations.FetchOfWrittenBytes := by
  refine ⟨fun s t sz a v hwrite => (memWrite_storedAt hwrite).2, fun s a haccess => ?_⟩
  refine ⟨fun hpol => ?coherent, fun _ hnew => ?unwritten, fun hpol hold => ?written,
    fun hpol hold hrun haccepted hpc => ?step⟩
  case coherent =>
    exact fetchByte_eq_memRead haccess fun ⟨hrefuse, _⟩ => by simp [hpol] at hrefuse
  case unwritten => exact fetchByte_eq_memRead haccess fun ⟨_, hwritten⟩ => hnew hwritten
  case written => exact fetchByte_selfModifyingCode haccess ⟨hpol, hold⟩
  case step =>
    subst hpc
    exact step_of_fetchByte_refuse hrun haccepted
      (fetchByte_selfModifyingCode haccess ⟨hpol, hold⟩)

/-! ### The stack pointer -/

@[simp] theorem State.setReg_rsp_sp (s : State) (v : Word) : (s.setReg Reg.rsp v).sp = v :=
  State.setReg_reg_same s Reg.rsp v

@[simp] theorem State.setPc_sp (s : State) (p : Word) : (s.setPc p).sp = s.sp := rfl

theorem push_sp {s t : State} {sz : Size} {v : BitVec sz.bits} (h : s.push sz v = .ok t) :
    t.sp = s.sp - BitVec.ofNat 64 sz.bytes := by
  obtain ⟨-, rfl⟩ := (push_ok_iff _ _ _ _).1 h
  exact State.setReg_rsp_sp _ _

/-- A destination other than RSP leaves RSP alone. -/
theorem writeDest_sp {s t : State} {sz : Size} {d : Dest} {v : BitVec sz.bits}
    (h : s.writeDest sz d v = .ok t) (hd : d ≠ .reg Reg.rsp) : t.sp = s.sp := by
  obtain ⟨r, rfl, rfl⟩ | ⟨a, -, -, rfl⟩ := (writeDest_ok_iff _ _ _ _ _).1 h
  · exact writeView_sameRegsBut s sz r v Reg.rsp fun hr => hd (congrArg Dest.reg hr.symm)
  · rfl

/-- A trapped state is not running: the branch of `exec…_next` that a completed instruction rules
out. -/
theorem trapped_not_running {s t : State} {r : TrapRecord} (ht : t = s.setRun (.trapped r)) :
    t.run ≠ .running := by
  subst ht
  simp

theorem exec_push_sp {s t : State} {sz : Size} {o : Source} (h : exec (.push sz o) s = .next t)
    (hrun : t.run = .running) : t.sp = s.sp - BitVec.ofNat 64 sz.bytes := by
  obtain ⟨-, hpush⟩ | ⟨c, htrap, -⟩ := execPush_next h
  · exact push_sp hpush
  · exact absurd hrun (trapped_not_running htrap)

theorem exec_pop_sp {s t : State} {sz : Size} {d : Dest} (h : exec (.pop sz d) s = .next t)
    (hrun : t.run = .running) (hd : d ≠ .reg Reg.rsp) :
    t.sp = s.sp + BitVec.ofNat 64 sz.bytes := by
  obtain ⟨-, hwrite⟩ | ⟨c, htrap, -⟩ := execPop_next h
  · rw [writeDest_sp hwrite hd, State.setReg_rsp_sp]
  · exact absurd hrun (trapped_not_running htrap)

theorem exec_call_sp {s t : State} {o : Source} (h : exec (.call o) s = .next t)
    (hrun : t.run = .running) : t.sp = s.sp - BitVec.ofNat 64 Size.q.bytes := by
  obtain ⟨u, hpush, -, rfl⟩ | ⟨c, htrap, -⟩ := execCall_next h
  · rw [State.setPc_sp, push_sp hpush]
  · exact absurd hrun (trapped_not_running htrap)

theorem exec_ret_sp {s t : State} (h : exec .ret s = .next t) (hrun : t.run = .running) :
    t.sp = s.sp + BitVec.ofNat 64 Size.q.bytes := by
  obtain ⟨-, rfl⟩ | ⟨c, htrap, -⟩ := execRet_next h
  · rw [State.setPc_sp, State.setReg_rsp_sp]
    rfl
  · exact absurd hrun (trapped_not_running htrap)

theorem size_bytes_le (sz : Size) : sz.bytes ≤ 8 := by cases sz <;> decide

theorem toNat_sub_bytes (w : Word) (sz : Size) :
    (w - BitVec.ofNat 64 sz.bytes).toNat = (w.toNat + 2 ^ 64 - sz.bytes) % 2 ^ 64 := by
  have hle := size_bytes_le sz
  rw [BitVec.toNat_sub, BitVec.toNat_ofNat]
  omega

theorem toNat_add_bytes (w : Word) (sz : Size) :
    (w + BitVec.ofNat 64 sz.bytes).toNat = (w.toNat + sz.bytes) % 2 ^ 64 := by
  rw [BitVec.toNat_add, BitVec.toNat_ofNat, Nat.add_mod_mod]

/-- Settles O29: the check stops the access, and each stack instruction that completes moves RSP by the
64-bit subtraction or addition of its size. -/
theorem topOfTheAddressSpace : Obligations.TopOfTheAddressSpace := by
  refine ⟨fun s sz a v htop => ?access, fun s t sz o _ h hrun => ?push,
    fun s t sz d _ h hrun hd => ?pop, fun s t o _ h hrun => ?call, fun s t _ h hrun => ?ret⟩
  case access =>
    have hcheck := check_accessWraps (s := s) htop
    exact ⟨(memRead_error_iff s sz a _).2 hcheck, (memWrite_error_iff s sz a v _).2 hcheck⟩
  case push => rw [exec_push_sp h hrun, toNat_sub_bytes]
  case pop => rw [exec_pop_sp h hrun hd, toNat_add_bytes]
  case call => rw [exec_call_sp h hrun, toNat_sub_bytes]
  case ret => rw [exec_ret_sp h hrun, toNat_add_bytes]

end Sys2Proof.Machine
end

section
/-! Decode faults (R110, R112): which bytes RC answers with an error, whatever follows them, and the
Invalid Opcode trap of a step that fetches such bytes. -/

namespace Sys2Proof

/-! ### The head of an instruction -/

theorem ofByte_reserved {b : Byte} (h : 0x0E ≤ b.toNat ∧ b.toNat ≤ 0xCB ∨ 0xCD ≤ b.toNat) :
    Opcode.ofByte b = none := by
  cases hb : Opcode.ofByte b with
  | none => rfl
  | some op =>
    have hbyte := opcode_byte_of_ofByte hb
    subst hbyte
    cases op <;> simp [Opcode.byte] at h

theorem sizeOfPrefix_eq_none {b : Byte} (h1 : b ≠ 0xF1) (h2 : b ≠ 0xF2) (h4 : b ≠ 0xF4) :
    sizeOfPrefix b = none := by
  rw [sizeOfPrefix, if_neg h1, if_neg h2, if_neg h4]

theorem sizeOfPrefix_eq_some {p : Byte} (h : p = 0xF1 ∨ p = 0xF2 ∨ p = 0xF4) :
    ∃ sz, sizeOfPrefix p = some sz := by
  obtain rfl | rfl | rfl := h
  · exact ⟨.b, rfl⟩
  · exact ⟨.w, rfl⟩
  · exact ⟨.d, rfl⟩

theorem decodeHead_opcode {b : Byte} (h : sizeOfPrefix b = none) (bs : List Byte) :
    decodeHead (b :: bs) = .ok ((none, b), bs) := by
  simp only [decodeHead, h]

theorem decodeHead_prefix {p : Byte} {sz : Size} (h : sizeOfPrefix p = some sz) (b : Byte)
    (bs : List Byte) : decodeHead (p :: b :: bs) = .ok ((some sz, b), bs) := by
  simp only [decodeHead, h]

theorem decodeRest_reservedOpcode {bo : ByteOrder} {bs rest : List Byte} {pre : Option Size}
    {b : Byte} (hhead : decodeHead bs = .ok ((pre, b), rest)) (hb : Opcode.ofByte b = none) :
    decodeRest bo bs = .error (.reservedOpcode b) := by
  simp only [decodeRest, hhead, hb]

theorem decodeRest_sizePrefixNotAllowed {bo : ByteOrder} {bs rest : List Byte} {sz : Size}
    {op : Opcode} (hhead : decodeHead bs = .ok ((some sz, op.byte), rest))
    (hop : op.takesSizePrefix = false) :
    decodeRest bo bs = .error (.sizePrefixNotAllowed op) := by
  simp [decodeRest, hhead, opcode_ofByte_byte, hop]

/-! ### Operands: an error in an operand is the error of the instruction -/

theorem decodeSource_reservedDescriptor (bo : ByteOrder) (sz : Size) {b : Byte}
    (hb : Machine.reservedDescriptorByte b) (bs : List Byte) :
    decodeSource bo sz (b :: bs) = .error (.reservedDescriptor b) := by
  obtain ⟨hreg, himm, hmem⟩ := hb
  rw [decodeSource, dif_neg (Nat.not_lt.2 hreg), if_neg himm, if_neg hmem]

/-- The immediate need not fit its size: its payload is read, then its kind is rejected (R113). -/
theorem decodeDest_imm (bo : ByteOrder) (sz : Size) (v : Word) :
    decodeDest bo sz (encodeSource bo sz (.imm v)) = .error .kindNotAccepted := by
  have hpayload := decodePayload_valueBytes bo sz.bytes v.toNat []
  rw [List.append_nil] at hpayload
  simp [decodeDest, encodeSource, decodeSource, hpayload]

theorem decodeF1_error {bo : ByteOrder} {sz : Size} {bs : List Byte} {e : DecodeError}
    (h : decodeSource bo sz bs = .error e) (mk : Source → Instr) :
    decodeF1 bo sz mk bs = .error e := by
  simp only [decodeF1, h]

theorem decodeDest_error {bo : ByteOrder} {sz : Size} {bs : List Byte} {e : DecodeError}
    (h : decodeSource bo sz bs = .error e) : decodeDest bo sz bs = .error e := by
  simp only [decodeDest, h]

/-- An error in Operand 1 of MOV, POP or CMP. -/
theorem decodeOperands_dest_error {bo : ByteOrder} {sz : Size} {op : Opcode} {bs : List Byte}
    {e : DecodeError} (hop : op = .mov ∨ op = .pop ∨ op = .cmp)
    (h : decodeDest bo sz bs = .error e) : decodeOperands bo sz op bs = .error e := by
  obtain rfl | rfl | rfl := hop
  · simp only [decodeOperands, decodeF2, h]
  · simp only [decodeOperands, decodeF1Dest, h]
  · simp only [decodeOperands, decodeF2, h]

/-- An error in Operand 2 of MOV or CMP. -/
theorem decodeOperands_operand2_error {bo : ByteOrder} {sz : Size} {op : Opcode}
    {bs rest : List Byte} {d : Dest} {e : DecodeError} (hop : op = .mov ∨ op = .cmp)
    (hd : decodeDest bo sz bs = .ok (d, rest)) (h : decodeSource bo sz rest = .error e) :
    decodeOperands bo sz op bs = .error e := by
  obtain rfl | rfl := hop <;> simp only [decodeOperands, decodeF2, hd, decodeF1_error h]

/-- An error in the first operand of an opcode of format F1 whose operand size is fixed. -/
theorem decodeOperands_unsized_error {bo : ByteOrder} {sz : Size} {op : Opcode} {bs : List Byte}
    {e : DecodeError} (hop : op = .int ∨ op = .call ∨ op = .jmp ∨ op = .jne)
    (h : decodeSource bo sz bs = .error e) : decodeOperands bo sz op bs = .error e := by
  obtain rfl | rfl | rfl | rfl := hop <;> exact decodeF1_error h _

theorem takesSizePrefix_iff (op : Opcode) :
    op.takesSizePrefix = true ↔ op = .push ∨ op = .mov ∨ op = .pop ∨ op = .cmp := by
  cases op <;> decide

/-- An error in the first operand of an opcode whose operand size can be set (R104). -/
theorem decodeOperands_sized_error {bo : ByteOrder} {sz : Size} {op : Opcode} {bs : List Byte}
    {e : DecodeError} (hop : op.takesSizePrefix = true) (h : decodeSource bo sz bs = .error e) :
    decodeOperands bo sz op bs = .error e := by
  obtain rfl | hdest := (takesSizePrefix_iff op).1 hop
  · exact decodeF1_error h _
  · exact decodeOperands_dest_error hdest (decodeDest_error h)

/-! ### Decode faults -/

/-- The bytes give an error of the decoder, not the want of more bytes: a decode fault (R110, R112). -/
def DecodeFault (bo : ByteOrder) (bs : List Byte) : Prop :=
  ∃ e, e ≠ .needMore ∧ decode bo bs = .error e

theorem decodeFault_of_decodeRest {bo : ByteOrder} {bs : List Byte} {e : DecodeError}
    (h : decodeRest bo bs = .error e) (he : e ≠ .needMore) : DecodeFault bo bs :=
  ⟨e, he, by simp only [decode, h]⟩

theorem decodeFault_of_sizedOperands {bo : ByteOrder} {sz : Size} {op : Opcode} {bs : List Byte}
    {e : DecodeError} (hop : op.takesSizePrefix = true) (h : decodeOperands bo sz op bs = .error e)
    (he : e ≠ .needMore) : DecodeFault bo (encodeSize sz ++ op.byte :: bs) :=
  decodeFault_of_decodeRest ((decodeRest_sized bo sz op hop bs).trans h) he

/-- A decode fault shows in the bytes of the longest instruction (R113). -/
theorem DecodeFault.take_maxInstrLength {bo : ByteOrder} {bs : List Byte} (h : DecodeFault bo bs) :
    DecodeFault bo (bs.take maxInstrLength) := by
  obtain ⟨e, he, hdecode⟩ := h
  have hsplit := List.take_append_drop maxInstrLength bs
  cases hhead : decode bo (bs.take maxInstrLength) with
  | ok p =>
    have hok := decode_append_ok hhead (bs.drop maxInstrLength)
    rw [hsplit, hdecode] at hok
    cases hok
  | error e' =>
    refine ⟨e', fun hmore => ?_, hhead⟩
    subst hmore
    have hshort := decode_needMore_length hhead
    rw [List.take_of_length_le (by rw [List.length_take] at hshort; omega), hdecode] at hhead
    cases hhead
    exact he rfl

theorem decodeFault_reservedOpcode (bo : ByteOrder) {bs rest : List Byte} {pre : Option Size}
    {b : Byte} (hhead : decodeHead bs = .ok ((pre, b), rest))
    (hb : 0x0E ≤ b.toNat ∧ b.toNat ≤ 0xCB ∨ 0xCD ≤ b.toNat) : DecodeFault bo bs :=
  decodeFault_of_decodeRest (decodeRest_reservedOpcode hhead (ofByte_reserved hb)) nofun

end Sys2Proof

namespace Sys2Proof.Machine

/-- Each form of R112 is a decode fault: the first is refused before any operand is read, the
others by the operand that is malformed. -/
theorem MalformedRc.decodeFault {bo : ByteOrder} {bs : List Byte} (h : MalformedRc bo bs) :
    DecodeFault bo bs := by
  cases h with
  | sizePrefix p op hp ho =>
    obtain ⟨sz, hsz⟩ := sizeOfPrefix_eq_some hp
    exact decodeFault_of_decodeRest
      (decodeRest_sizePrefixNotAllowed (decodeHead_prefix hsz op.byte []) ho) nofun
  | operand op b hb ho =>
    refine decodeFault_of_decodeRest (e := .reservedDescriptor b) ?_ nofun
    rw [decodeRest_opcode]
    exact decodeOperands_unsized_error ho (decodeSource_reservedDescriptor bo .q hb [])
  | sizedOperand sz op b hb ho =>
    have hsource := decodeSource_reservedDescriptor bo sz hb []
    exact decodeFault_of_sizedOperands ho (decodeOperands_sized_error ho hsource) nofun
  | operand2 sz op d b hb ho =>
    have hop : op.takesSizePrefix = true := by obtain rfl | rfl := ho <;> rfl
    have hsource := decodeSource_reservedDescriptor bo sz hb []
    have hdest := decodeDest_encodeSource bo sz d [b]
    exact decodeFault_of_sizedOperands hop (decodeOperands_operand2_error ho hdest hsource) nofun
  | immediateDest sz op v ho =>
    have hop : op.takesSizePrefix = true := (takesSizePrefix_iff op).2 (.inr ho)
    have hdest := decodeDest_imm bo sz v
    exact decodeFault_of_sizedOperands hop (decodeOperands_dest_error ho hdest) nofun

/-! ### The step -/

theorem State.fetches_take {s : State} {k : Nat} {bs : List Byte} (h : s.fetches k bs) (n : Nat) :
    s.fetches k (bs.take n) := fun j hj => by
  rw [List.getElem_take]
  exact h j (hj.trans_le (List.length_take_le' n bs))

/-- A code that the fetch or the decoder raises is taken with `at` and `next` both the address of the
instruction, and nothing else changes (R110, R232). -/
theorem step_of_fetchDecode_raise {s : State} {c : Code} (hrun : s.run = .running)
    (haccepted : s.accepted = none) (h : s.fetchState.fetchDecode = .error (.raise c)) :
    ∃ t, step s = .next t ∧ TrapTaken s.fetchState c s.pc s.pc t := by
  refine ⟨_, ?_, trapTaken s.fetchState c s.pc s.pc⟩
  rw [step_running hrun haccepted, h]
  rfl

theorem step_of_decodeFault {s : State} {bs : List Byte} (hrun : s.run = .running)
    (haccepted : s.accepted = none) (hfetch : s.fetchState.fetches s.pc.toNat bs)
    (hfault : DecodeFault s.cfg.byteOrder bs) :
    ∃ t, step s = .next t ∧ TrapTaken s.fetchState 4 s.pc s.pc t := by
  obtain ⟨e, he, hdecode⟩ := hfault.take_maxInstrLength
  exact step_of_fetchDecode_raise hrun haccepted
    (fetchDecode_fault (State.fetches_take hfetch _) (List.length_take_le _ _) hdecode he)

/-- Settles O7: the opcode byte is `b`, first or after the byte that sets the size, and the
map of R109 has no row for it. -/
theorem reservedOpcodeTraps : Obligations.ReservedOpcodeTraps := by
  intro s b hrun haccepted hb hbytes
  obtain ⟨h1, h2, h4, hfetch⟩ | ⟨p, hp, hfetch⟩ := hbytes
  · have hhead := decodeHead_opcode (sizeOfPrefix_eq_none h1 h2 h4) []
    exact step_of_decodeFault hrun haccepted hfetch (decodeFault_reservedOpcode _ hhead hb)
  · obtain ⟨sz, hsz⟩ := sizeOfPrefix_eq_some hp
    have hhead := decodeHead_prefix hsz b []
    exact step_of_decodeFault hrun haccepted hfetch (decodeFault_reservedOpcode _ hhead hb)

/-- Settles O8: every form of R112 is a decode fault. -/
theorem malformedBytesTrap : Obligations.MalformedBytesTrap :=
  fun _ _ hrun haccepted hmalformed hfetch =>
    step_of_decodeFault hrun haccepted hfetch hmalformed.decodeFault

end Sys2Proof.Machine
end

section
/-! System instructions (R140 to R146): what NOP, UD, BRK, SYSEXIT, INT and CPUID answer, one equation per
case of their rules, and the step that runs an instruction whose encoding is at `pc`. -/

namespace Sys2Proof.Machine

/-! ### Raising a code -/

theorem takeTrap_trapTaken (s : State) (c : Code) (origin next : Word) :
    ∃ t, takeTrap s c origin next = .next t ∧ TrapTaken s c origin next t :=
  ⟨_, takeTrap_eq s c origin next, trapTaken s c origin next⟩

/-- The trap names its own `next`, so how far `pc` had advanced does not show in it (R232). -/
theorem TrapTaken.of_advance {s t : State} {n : Nat} {c : Code} {origin next : Word}
    (h : TrapTaken (s.advance n) c origin next t) : TrapTaken s c origin next t := h

/-- The codes 0 to 12 have rows of their own in the table, none of them Reserved (R210). -/
theorem codeKind_ne_reserved {c : Code} (h : c.toNat < 13) : codeKind c ≠ .reserved := by
  unfold codeKind
  interval_cases c.toNat <;> simp

theorem codeKind_of_thirteen_le {c : Code} (h : 13 ≤ c.toNat) :
    codeKind c = if c.toNat < 32 then .reserved else .maskable := by
  unfold codeKind
  split
  case h_14 => rfl
  all_goals omega

theorem codeKind_eq_reserved_iff (c : Code) :
    codeKind c = .reserved ↔ 13 ≤ c.toNat ∧ c.toNat ≤ 31 := by
  obtain hlow | hhigh := Nat.lt_or_ge c.toNat 13
  · have hne := codeKind_ne_reserved hlow
    simp only [hne, false_iff]
    omega
  · rw [codeKind_of_thirteen_le hhigh]
    split <;> simp <;> omega

/-! ### The step that runs an encoded instruction -/

theorem decode_encode_of_roundTrip {i : Instr} (hrt : Laws.RoundTrip.Statement i)
    (hwf : i.WellFormed) (bo : ByteOrder) :
    decode bo (encode bo i) = .ok (i, (encode bo i).length) := by
  have hrest := hrt bo [] hwf
  rw [List.append_nil] at hrest
  simp only [decode, hrest, List.length_nil, Nat.sub_zero]

/-- A running CPU that takes no interrupt and can fetch the encoding of an instruction runs it (R11). -/
theorem step_of_fetches_encode {s : State} {i : Instr} (hrt : Laws.RoundTrip.Statement i)
    (hwf : i.WellFormed) (hrun : s.run = .running) (haccepted : s.accepted = none)
    (hfetch : s.fetchState.fetches s.pc.toNat (encode s.cfg.byteOrder i)) :
    step s = singleStep (exec i (s.fetchState.advance (encode s.cfg.byteOrder i).length)) := by
  have hdecode : s.fetchState.fetchDecode = .ok (i, (encode s.cfg.byteOrder i).length) :=
    fetchDecode_ok hfetch (decode_encode_of_roundTrip hrt hwf s.cfg.byteOrder)
  rw [step_running hrun haccepted, hdecode]

theorem singleStep_of_TF_clear {s : State} (h : s.flags.TF = false) :
    singleStep (.next s) = .next s :=
  (singleStep_next_iff _ s).2 ⟨s, rfl, .inl ⟨fun ⟨_, hTF⟩ => by simp [h] at hTF, rfl⟩⟩

/-- A trap is followed by no single-step trap (R223). -/
theorem singleStep_takeTrap (s : State) (c : Code) (origin next : Word) :
    singleStep (takeTrap s c origin next) = takeTrap s c origin next :=
  (singleStep_next_iff _ _).2 ⟨_, takeTrap_eq s c origin next, .inl ⟨by simp, rfl⟩⟩

/-! ### NOP, UD, BRK, SYSEXIT -/

theorem exec_nop (s : State) : exec .nop s = .next s := rfl

theorem exec_ud (s : State) : exec .ud s = takeTrap s Code.invalidOpcode s.instrAt s.pc := rfl

theorem exec_brk_breakpoint {s : State} (h : s.cfg.ccIsBreakpoint = true) :
    exec .brk s = takeTrap s Code.breakpoint s.instrAt s.pc := if_pos h

theorem exec_brk_reserved {s : State} (h : s.cfg.ccIsBreakpoint = false) :
    exec .brk s = takeTrap s Code.invalidOpcode s.instrAt s.instrAt := if_neg (by simp [h])

theorem exec_sysexit (s : State) : exec .sysexit s = .next (s.setRun .shutdown) := rfl

/-- Settles O36: the step advances `pc` past the one byte of NOP, and with TF = 0 no trap follows. -/
theorem nopOnlyAdvances : Obligations.NopOnlyAdvances := by
  refine ⟨exec_nop, fun s hrun haccepted hTF hfetch => ⟨s.fetchState.advance 1, ?step, ?frame⟩⟩
  case step =>
    rw [step_of_fetches_encode Laws.RoundTrip.nop rfl hrun haccepted hfetch, exec_nop]
    exact singleStep_of_TF_clear hTF
  case frame => exact ⟨rfl, rfl, rfl, hrun, fun _ => rfl, rfl⟩

/-- Settles O37: UD decodes, so `next` is the advanced `pc`. -/
theorem udRaises : Obligations.UdRaises := by
  refine ⟨fun s => ?exec, fun s hrun haccepted hfetch => ?step⟩
  case exec =>
    rw [exec_ud]
    exact takeTrap_trapTaken ..
  case step =>
    rw [step_of_fetches_encode Laws.RoundTrip.ud rfl hrun haccepted hfetch, exec_ud,
      singleStep_takeTrap]
    exact takeTrap_trapTaken ..

/-- Settles O38: CC_IS_BREAKPOINT selects between the two traps of R146. -/
theorem brkRaises : Obligations.BrkRaises := by
  refine ⟨fun s => ⟨fun hcc => ?breakpoint, fun hcc => ?reserved⟩,
    fun s hrun haccepted hfetch => ?step⟩
  case breakpoint =>
    rw [exec_brk_breakpoint hcc]
    exact takeTrap_trapTaken ..
  case reserved =>
    rw [exec_brk_reserved hcc]
    exact takeTrap_trapTaken ..
  case step =>
    have hstep : step s = singleStep (exec .brk (s.fetchState.advance 1)) :=
      step_of_fetches_encode Laws.RoundTrip.brk rfl hrun haccepted hfetch
    rw [hstep]
    cases hcc : s.cfg.ccIsBreakpoint with
    | true =>
      rw [exec_brk_breakpoint (s := s.fetchState.advance 1) hcc, singleStep_takeTrap]
      obtain ⟨t, hnext, htrap⟩ := takeTrap_trapTaken (s.fetchState.advance 1) 2 s.pc (s.pc + 1)
      exact ⟨t, hnext, fun _ => htrap, nofun⟩
    | false =>
      rw [exec_brk_reserved (s := s.fetchState.advance 1) hcc, singleStep_takeTrap]
      obtain ⟨t, hnext, htrap⟩ := takeTrap_trapTaken (s.fetchState.advance 1) 4 s.pc s.pc
      exact ⟨t, hnext, nofun, fun _ => htrap.of_advance⟩

/-- Settles O40: only the run state changes, and a shut down CPU answers itself. -/
theorem sysexitShutsDown : Obligations.SysexitShutsDown := fun s =>
  ⟨s.setRun .shutdown, exec_sysexit s, rfl, rfl, fun _ _ => rfl, rfl, ⟨fun _ => rfl, rfl⟩,
    ⟨rfl, rfl, rfl, rfl, rfl, rfl⟩, rfl, stepOn_done (.inl rfl) defaultPlatform⟩

/-! ### INT -/

theorem interruptOf_outOfRange {v : Word} (h : 255 < v.toNat) :
    interruptOf v = .refuse .intCodeOutOfRange := if_pos h

theorem codeKind_setWidth_eq_reserved_iff {v : Word} (h : v.toNat ≤ 255) :
    codeKind (v.setWidth 8) = .reserved ↔ 13 ≤ v.toNat ∧ v.toNat ≤ 31 := by
  have hcode : (v.setWidth 8).toNat = v.toNat := by
    rw [BitVec.toNat_setWidth]
    omega
  rw [codeKind_eq_reserved_iff, hcode]

theorem interruptOf_reserved {v : Word} (h : 13 ≤ v.toNat ∧ v.toNat ≤ 31) :
    interruptOf v = .refuse .intCodeReserved := by
  have hle : v.toNat ≤ 255 := by omega
  rw [interruptOf, if_neg (Nat.not_lt.2 hle), if_pos ((codeKind_setWidth_eq_reserved_iff hle).2 h)]

theorem interruptOf_raise {v : Word} (h : v.toNat ≤ 12 ∨ 32 ≤ v.toNat ∧ v.toNat ≤ 255) :
    interruptOf v = .raise (BitVec.ofNat 8 v.toNat) := by
  have hle : v.toNat ≤ 255 := by omega
  have hkind : ¬ codeKind (v.setWidth 8) = .reserved := by
    rw [codeKind_setWidth_eq_reserved_iff hle]
    omega
  rw [interruptOf, if_neg (Nat.not_lt.2 hle), if_neg hkind, BitVec.ofNat_toNat]

theorem exec_int_of_canRead {s : State} {o : Source} (h : s.canRead .q o) :
    exec (.int o) s = complete s (.error (interruptOf (s.sourceValue .q o))) := by
  show execInt o s = _
  rw [execInt, source_of_canRead h]

theorem exec_int_of_source_error {s : State} {o : Source} {e : Stop}
    (h : s.source .q o = .error e) : exec (.int o) s = complete s (.error e) := by
  show execInt o s = _
  rw [execInt, h]

/-- A source operand in reserved memory raises Protection Exception (R76). -/
theorem source_mem_of_hitsReserved {s : State} {a : Word} {sz : Size}
    (h : s.hitsReserved a sz.bytes) : s.source sz (.mem a) = .error (.raise Code.protection) :=
  (source_error_iff s sz (.mem a) _).2 ⟨a, rfl, (check_raise_iff s a sz.bytes _).2 ⟨rfl, h⟩⟩

/-- Settles O41: the operand is read or raises 11, and `interruptOf` answers by the range its value lies
in. -/
theorem intRaises : Obligations.IntRaises := by
  refine fun s o => ⟨fun hread => ?readable, fun a ho hhits => ?reservedMemory⟩
  case readable =>
    rw [exec_int_of_canRead hread]
    refine ⟨fun hrange => ?raise, fun hrange => ?reservedCode, fun hrange => ?outOfRange⟩
    case raise =>
      rw [interruptOf_raise hrange]
      exact takeTrap_trapTaken ..
    case reservedCode =>
      rw [interruptOf_reserved hrange]
      rfl
    case outOfRange =>
      rw [interruptOf_outOfRange hrange]
      rfl
  case reservedMemory =>
    subst ho
    rw [exec_int_of_source_error (source_mem_of_hitsReserved hhits)]
    exact takeTrap_trapTaken ..

/-! ### CPUID -/

theorem exec_cpuid_of_some {s : State} {ws : List (Reg × Word)}
    (h : cpuidWrites s.cfg (s.reg Reg.rax) s.flags.ID = some ws) :
    exec .cpuid s = .next (s.applyWrites ws) := by
  show execCpuid s = _
  rw [execCpuid, h]
  rfl

theorem exec_cpuid_of_none {s : State}
    (h : cpuidWrites s.cfg (s.reg Reg.rax) s.flags.ID = none) :
    exec .cpuid s = .refused .cpuidNotSpecified := by
  show execCpuid s = _
  rw [execCpuid, h]
  rfl

/-- Settles O42: the writes change registers only, and the default table has no entry. The name is in a
namespace of its own because the model has a `cpuidWrites`. -/
theorem Cpuid.cpuidWrites : Obligations.CpuidWrites := by
  refine ⟨fun _ _ => rfl, fun s => ⟨fun ws hws => ?writes, exec_cpuid_of_none⟩⟩
  case writes =>
    obtain ⟨x, hframe, hregs⟩ := applyWrites_eq s ws
    refine ⟨s.applyWrites ws, exec_cpuid_of_some hws, hregs, ?_⟩
    rw [hframe]
    exact ⟨rfl, rfl, rfl, ⟨fun _ => rfl, rfl⟩, ⟨rfl, rfl, rfl, rfl, rfl, rfl⟩, rfl⟩

end Sys2Proof.Machine
end

section
/-! Control transfer (R180, R181, R185): a pop from the stack a push left gives back the pushed value and
RSP, and RET goes to the value it pops. -/

namespace Sys2Proof.Machine

/-! ### The stack that a pop reads -/

/-- What a pop depends on is the same in both: RSP, memory, configuration and modes (R165). -/
structure SameStack (s t : State) : Prop where
  sp : t.sp = s.sp
  mem : t.mem = s.mem
  cfg : t.cfg = s.cfg
  amode : t.amode = s.amode
  mmodel : t.mmodel = s.mmodel

/-- Under either stack discipline a pop loads from where the push stored (R164, R165). -/
theorem popAddr_of_push {s t : State} {sz : Size} {v : BitVec sz.bits} (h : s.push sz v = .ok t) :
    t.popAddr sz = s.pushAddr sz := by
  have hsp := push_sp h
  obtain ⟨hcfg, -, -⟩ := push_mode h
  rw [State.popAddr, State.pushAddr, hcfg, hsp]
  cases s.cfg.stackDiscipline with
  | postDecrement => exact BitVec.sub_add_cancel _ _
  | preDecrement => rfl

theorem popAddr_congr {s t : State} (h : SameStack s t) (sz : Size) :
    t.popAddr sz = s.popAddr sz := by
  rw [State.popAddr, State.popAddr, h.cfg, h.sp]

/-- The slot of a push holds the pushed value and can be read (R164). -/
theorem push_slot {s t : State} {sz : Size} {v : BitVec sz.bits} (hwf : s.mem.wf = true)
    (h : s.push sz v = .ok t) :
    t.accessible (s.pushAddr sz) sz.bytes ∧ t.memValue sz (s.pushAddr sz) = v := by
  obtain ⟨haccess, rfl⟩ := (push_ok_iff _ _ _ _).1 h
  exact ⟨haccess, memValue_storeBytes hwf sz (s.pushAddr sz) v⟩

/-- A pop from the stack that a push left undoes it: it gives the pushed value and the old RSP (R165,
R185). -/
theorem pop_of_push {s t u : State} {sz : Size} {v : BitVec sz.bits} (hwf : s.mem.wf = true)
    (hpush : s.push sz v = .ok t) (hsame : SameStack t u) :
    u.pop sz = .ok (v, u.setReg Reg.rsp s.sp) := by
  obtain ⟨haccess, hvalue⟩ := push_slot hwf hpush
  have haddr : u.popAddr sz = s.pushAddr sz := (popAddr_congr hsame sz).trans (popAddr_of_push hpush)
  have hsp : s.sp = u.sp + BitVec.ofNat 64 sz.bytes := by
    rw [hsame.sp, push_sp hpush, BitVec.sub_add_cancel]
  rw [pop_ok_iff, haddr, memValue_congr hsame.mem hsame.cfg, hvalue, ← hsp]
  exact ⟨(accessible_congr hsame.cfg hsame.amode hsame.mmodel _ _).2 haccess, rfl, rfl⟩

/-! ### CALL and RET -/

theorem exec_ret_of_pop {s t : State} {target : Word} (h : s.pop .q = .ok (target, t)) :
    exec .ret s = .next (t.setPc target) := by
  show execRet s = _
  rw [execRet, h]
  rfl

/-- A CALL that completes has pushed the return address and changed only `pc` since (R180). -/
theorem exec_call_push {s t : State} {o : Source} (h : exec (.call o) s = .next t)
    (hrun : t.run = .running) :
    ∃ p target, s.push .q s.pc = .ok p ∧ t = p.setPc target := by
  obtain ⟨p, hpush, -, ht⟩ | ⟨c, htrap, -⟩ := execCall_next h
  · exact ⟨p, _, hpush, ht⟩
  · exact absurd hrun (trapped_not_running htrap)

/-- Settles O53: the pop of RET undoes the push of CALL, since the transfer to the target leaves the stack
alone. -/
theorem retReturnsFromCall : Obligations.RetReturnsFromCall := by
  intro s t u o hwf _ hcall htrun hsp hmem hcfg hamode hmmodel
  obtain ⟨p, target, hpush, rfl⟩ := exec_call_push hcall htrun
  have hpop := pop_of_push hwf hpush (u := u) ⟨hsp, hmem, hcfg, hamode, hmmodel⟩
  exact ⟨_, exec_ret_of_pop hpop, rfl, State.setReg_rsp_sp u s.sp⟩

end Sys2Proof.Machine
end

section
/-! Compare (R200, R202): the formula of each result flag, and CMP as an equation on the states whose
operands can be read. -/

namespace Sys2Proof.Machine

/-! ### The result flags -/

section
variable {n : Nat} (f : Eflags) (va vb : BitVec n)

theorem compareFlags_ZF_iff : (compareFlags f va vb).ZF = true ↔ va = vb := by
  show (va - vb == 0#n) = true ↔ va = vb
  rw [beq_iff_eq, BitVec.sub_eq_iff_eq_add, BitVec.zero_add]

theorem compareFlags_CF_iff : (compareFlags f va vb).CF = true ↔ va.toNat < vb.toNat :=
  decide_eq_true_iff

theorem compareFlags_SF : (compareFlags f va vb).SF = (va - vb).getLsbD (n - 1) :=
  BitVec.msb_eq_getLsbD_last _

theorem compareFlags_OF_iff :
    (compareFlags f va vb).OF = true ↔ (va - vb).getLsbD (n - 1) ≠ va.getLsbD (n - 1) := by
  show ((va - vb).msb != va.msb) = true ↔ _
  rw [bne_iff_ne, BitVec.msb_eq_getLsbD_last, BitVec.msb_eq_getLsbD_last]

end

/-- A change of flags to those of a comparison leaves the flags no instruction writes (R39). -/
theorem sameControlFlags_compareFlags {n : Nat} (s : State) (va vb : BitVec n) :
    SameControlFlags s (s.setFlags (compareFlags s.flags va vb)) := ⟨rfl, rfl, rfl, rfl⟩

/-! ### CMP -/

theorem exec_cmp_of_canRead {s : State} {sz : Size} {a : Dest} {o : Source}
    (ha : s.canRead sz a.asSource) (ho : s.canRead sz o) :
    exec (.cmp sz a o) s = .next
      (s.setFlags (compareFlags s.flags (s.sourceValue sz a.asSource) (s.sourceValue sz o))) := by
  show execCmp sz a o s = _
  rw [execCmp, source_of_canRead ha, source_of_canRead ho]
  rfl

/-- Settles O56: a CMP that reads both operands only sets the flags, each by its formula at the operand
width. -/
theorem cmpResult : Obligations.CmpResult := by
  intro s sz a o ha ho
  refine ⟨_, exec_cmp_of_canRead ha ho, ?ZF, ?CF, ?SF, ?OF, ?frame⟩
  case ZF => exact compareFlags_ZF_iff ..
  case CF => exact compareFlags_CF_iff ..
  case SF => rw [State.setFlags_flags, compareFlags_SF]
  case OF => exact compareFlags_OF_iff ..
  case frame =>
    exact ⟨sameControlFlags_compareFlags .., fun _ _ => rfl, rfl, rfl, ⟨fun _ => rfl, rfl⟩,
      ⟨rfl, rfl, rfl, rfl, rfl, rfl⟩, rfl⟩

end Sys2Proof.Machine
end

section
/-! Exceptions (R223, R227, R232): the trap an instruction raises, with the state it leaves and its cause;
the single-step trap after one that completes; and the causes of every trap of a step. -/

namespace Sys2Proof.Machine

/-! ### The trap an instruction raises -/

/-- A running CPU is trapped by an instruction only on the state that instruction began in, with a code
that is not reserved; `next` is the address after the instruction but for a reserved 0xCC (R146, R232). -/
theorem exec_trap {i : Instr} {s t : State} {r : TrapRecord} (h : exec i s = .next t)
    (hrun : s.run = .running) (htrap : t.run = .trapped r) :
    t = (s.setPc r.next).setRun (.trapped r) ∧ r.origin = s.instrAt ∧ codeKind r.code ≠ .reserved ∧
      ((r.next = s.pc ∧ TrapCause i s r.code) ∨
        (r.next = s.instrAt ∧ i = .brk ∧ s.cfg.ccIsBreakpoint = false ∧
          r.code = Code.invalidOpcode)) := by
  obtain hsame | ⟨-, hhalted⟩ | ⟨-, hshutdown⟩ | ⟨c, next, rfl, hkind, hcause⟩ := (exec_effect h).run
  · simp [hsame, hrun] at htrap
  · simp [hhalted] at htrap
  · simp [hshutdown] at htrap
  · cases htrap
    exact ⟨rfl, rfl, hkind, hcause⟩

/-- Settles O16: `exec_trap` names the trapped state, and taking a trap changes `pc` and the run state
only. -/
theorem trapsArePrecise : Obligations.TrapsArePrecise := by
  refine ⟨fun i s t r h hrun htrap => ?exec, fun s c hrun haccepted hraise => ?fetch⟩
  case exec =>
    obtain ⟨rfl, horigin, -, hcause⟩ := exec_trap h hrun htrap
    refine ⟨horigin ▸ trapTaken s r.code r.origin r.next, horigin, ?_⟩
    obtain ⟨hnext, -⟩ | ⟨hnext, hbrk, hcc, -⟩ := hcause
    · exact .inl hnext
    · exact .inr ⟨hbrk, hcc, hnext⟩
  case fetch => exact step_of_fetchDecode_raise hrun haccepted hraise

/-! ### Single step -/

/-- An instruction neither writes TF (R34) nor moves the recorded address of the instruction. -/
theorem exec_TF_instrAt {i : Instr} {s t : State} (h : exec i s = .next t) :
    t.flags.TF = s.flags.TF ∧ t.instrAt = s.instrAt := by
  obtain ⟨⟨-, -, -, -, hinstrAt, -⟩, hTF, -⟩ := (exec_effect h).fixed
  exact ⟨hTF, hinstrAt⟩

theorem singleStep_of_traced {s : State} (hrun : s.run = .running) (hTF : s.flags.TF = true) :
    singleStep (.next s) = takeTrap s Code.singleStep s.instrAt s.pc := if_pos ⟨hrun, hTF⟩

theorem singleStep_of_untraced {s : State} (h : s.run ≠ .running ∨ s.flags.TF = false) :
    singleStep (.next s) = .next s :=
  if_neg fun ⟨hrun, hTF⟩ => h.elim (· hrun) fun hclear => by simp [hclear] at hTF

/-- Settles O10: the check looks at the state after the instruction, which has kept TF and the recorded
address. -/
theorem singleStepAfterCompletion : Obligations.SingleStepAfterCompletion := by
  intro i s t h
  obtain ⟨hTF, hinstrAt⟩ := exec_TF_instrAt h
  rw [h, ← hTF, ← hinstrAt]
  refine ⟨fun hrun htraced => ?traced, singleStep_of_untraced⟩
  case traced =>
    rw [singleStep_of_traced hrun htraced]
    exact takeTrap_trapTaken ..

/-! ### The causes of a trap -/

theorem code_range_of_not_reserved {c : Code} (h : codeKind c ≠ .reserved) :
    c.toNat ≤ 12 ∨ 32 ≤ c.toNat := by
  rw [Ne, codeKind_eq_reserved_iff] at h
  omega

/-- The instruction that raised a code, or the reserved address it touched (R227). -/
theorem exec_trap_cause {i : Instr} {s t : State} {r : TrapRecord} (h : exec i s = .next t)
    (hrun : s.run = .running) (htrap : t.run = .trapped r) :
    (r.code = Code.invalidOpcode ∧ (i = .ud ∨ i = .brk ∧ s.cfg.ccIsBreakpoint = false)) ∨
      (r.code = Code.breakpoint ∧ s.cfg.ccIsBreakpoint = true ∧ i = .brk) ∨
      (r.code = Code.protection ∧ ∃ a, s.isReserved a = true) ∨
      (r.code.toNat ≤ 12 ∨ 32 ≤ r.code.toNat) ∧ ∃ o, i = .int o := by
  obtain ⟨-, -, hkind, ⟨-, hcause⟩ | ⟨-, hbrk, hcc, hcode⟩⟩ := exec_trap h hrun htrap
  · obtain ⟨hud, hcode⟩ | ⟨hbrk, hcc, hcode⟩ | hreserved | hint := hcause
    · exact .inl ⟨hcode, .inl hud⟩
    · exact .inr (.inl ⟨hcode, hcc, hbrk⟩)
    · exact .inr (.inr (.inl hreserved))
    · exact .inr (.inr (.inr ⟨code_range_of_not_reserved hkind, hint⟩))
  · exact .inl ⟨hcode, .inr ⟨hbrk, hcc⟩⟩

/-- Settles O17: a trapped step took an interrupt, could not decode, was traced, or ran an instruction
that raised; each has its own entries in the list. -/
theorem raisableCodes : Obligations.RaisableCodes := by
  intro s t r hstep hactive htrap
  cases step_cases hstep with
  | done hs ht => rcases hactive with ha | ha <;> simp [ha] at hs
  | wait hs _ ht => simp [ht, hs] at htrap
  | interrupt n _ hIF hn ht =>
    subst ht
    cases htrap
    exact .inr (.inr (.inr (.inr (.inl ⟨hIF, n, hn, rfl⟩))))
  | decodeFault code _ _ hd ht =>
    subst ht
    cases htrap
    obtain rfl | hreserved := fetchDecode_raise hd
    · exact .inl ⟨rfl, .inl hd⟩
    · exact .inr (.inr (.inl hreserved))
  | instr i n u hrun _ hd he ht =>
    obtain ⟨-, rfl⟩ | ⟨-, hTF, rfl⟩ := ht
    · obtain ⟨hcode, rfl | ⟨rfl, hcc⟩⟩ | ⟨hcode, hcc, rfl⟩ | hreserved | ⟨hrange, o, rfl⟩ :=
        exec_trap_cause he hrun htrap
      · exact .inl ⟨hcode, .inr (.inl ⟨n, hd⟩)⟩
      · exact .inl ⟨hcode, .inr (.inr ⟨n, hd, hcc⟩)⟩
      · exact .inr (.inl ⟨hcode, hcc, n, hd⟩)
      · exact .inr (.inr (.inl hreserved))
      · exact .inr (.inr (.inr (.inr (.inr ⟨hrange, o, n, hd⟩))))
    · cases htrap
      exact .inr (.inr (.inr (.inl ⟨rfl, (exec_TF_instrAt he).1.symm.trans hTF⟩)))

end Sys2Proof.Machine
end

section
/-! How a run ends (R145, R263): the step that enters Shutdown is that of a SYSEXIT, and a run that ends
normally takes it once and then stays where it is. -/

namespace Sys2Proof.Machine

/-! ### The length of a decoded instruction -/

theorem decode_ok_length {bo : ByteOrder} {bs : List Byte} {i : Instr} {n : Nat}
    (h : decode bo bs = .ok (i, n)) : n = (encode bo i).length := by
  unfold decode at h
  cases hrest : decodeRest bo bs with
  | error e => simp [hrest] at h
  | ok p =>
    obtain ⟨j, rest⟩ := p
    rw [hrest] at h
    cases h
    obtain ⟨hbs, -⟩ := decodeRest_ok hrest
    simp [hbs]

theorem decodeFrom_ok_length {bo : ByteOrder} {fetch : Nat → Res Byte} {k n : Nat} {i : Instr}
    (h : decodeFrom bo fetch k = .ok (i, n)) : n = (encode bo i).length := by
  unfold decodeFrom at h
  split at h
  · next hdecode => cases h; exact decode_ok_length hdecode
  all_goals cases h

/-- SYSEXIT is one byte long in RC, as R113 counts it. -/
theorem fetchDecode_sysexit_length {s : State} {n : Nat} (h : s.fetchDecode = .ok (.sysexit, n)) :
    n = 1 := decodeFrom_ok_length h

/-! ### The step that shuts the CPU down -/

/-- The CPU runs, takes no interrupt and decodes a SYSEXIT at `pc`; `t` is its state with the boundary
passed, `pc` after the SYSEXIT, and shut down. -/
def ExecutesSysexit (s t : State) : Prop :=
  s.run = .running ∧ s.accepted = none ∧ s.fetchState.fetchDecode = .ok (.sysexit, 1) ∧
    t = (s.fetchState.advance 1).setRun .shutdown

theorem ExecutesSysexit.step {s t : State} (h : ExecutesSysexit s t) : step s = .next t := by
  obtain ⟨hrun, haccepted, hdecode, rfl⟩ := h
  rw [step_running hrun haccepted, hdecode]
  exact singleStep_of_untraced (.inl (by simp))

theorem ExecutesSysexit.not_shutdown {s t : State} (h : ExecutesSysexit s t) : s.run ≠ .shutdown := by
  obtain ⟨hrun, -⟩ := h
  simp [hrun]

theorem ExecutesSysexit.shutdown {s t : State} (h : ExecutesSysexit s t) : t.run = .shutdown := by
  obtain ⟨-, -, -, rfl⟩ := h
  rfl

/-- No instruction but SYSEXIT shuts a running CPU down. -/
theorem exec_shutdown {i : Instr} {s t : State} (h : exec i s = .next t) (hrun : s.run = .running)
    (hshut : t.run = .shutdown) : i = .sysexit := by
  obtain hsame | ⟨-, hhalted⟩ | ⟨hsysexit, -⟩ | ⟨c, next, rfl, -, -⟩ := (exec_effect h).run
  · simp [hsame, hrun] at hshut
  · simp [hhalted] at hshut
  · exact hsysexit
  · simp at hshut

/-- A step that enters Shutdown executes a SYSEXIT: interrupts, decode faults and single-step traps leave a
trapped state, a wait leaves a halted one. -/
theorem executesSysexit_of_step {s t : State} (h : step s = .next t) (hs : s.run ≠ .shutdown)
    (ht : t.run = .shutdown) : ExecutesSysexit s t := by
  cases step_cases h with
  | done _ hstay => exact absurd (hstay ▸ ht) hs
  | interrupt n _ _ _ htrap => simp [htrap] at ht
  | wait hhalted _ hpass => simp [hpass, hhalted] at ht
  | decodeFault code _ _ _ htrap => simp [htrap] at ht
  | instr i n u hrun haccepted hdecode hexec hcheck =>
    obtain ⟨-, rfl⟩ | ⟨-, -, htrap⟩ := hcheck
    · obtain rfl := exec_shutdown hexec hrun ht
      obtain rfl := fetchDecode_sysexit_length hdecode
      rw [exec_sysexit] at hexec
      cases hexec
      exact ⟨hrun, haccepted, hdecode, rfl⟩
    · simp [htrap] at ht

theorem executesSysexit_iff {s t : State} :
    ExecutesSysexit s t ↔ step s = .next t ∧ s.run ≠ .shutdown ∧ t.run = .shutdown :=
  ⟨fun h => ⟨h.step, h.not_shutdown, h.shutdown⟩,
    fun ⟨hstep, hs, ht⟩ => executesSysexit_of_step hstep hs ht⟩

/-! ### Runs that shut down -/

theorem reaches_zero {s t : State} : Reaches 0 s t ↔ t = s :=
  ⟨fun h => by cases h; rfl, fun h => h ▸ rfl⟩

/-- A run of `k + 1` steps is a run of `k` steps and a last step. -/
theorem reaches_succ_last {k : Nat} {s t : State} :
    Reaches (k + 1) s t ↔ ∃ u, Reaches k s u ∧ step u = .next t := by
  induction k generalizing s with
  | zero => simp [reaches_succ, reaches_zero]
  | succ k ih =>
    rw [reaches_succ]
    simp only [ih, reaches_succ (k := k)]
    exact ⟨fun ⟨v, hv, u, hu, ht⟩ => ⟨u, ⟨v, hv, hu⟩, ht⟩,
      fun ⟨u, ⟨v, hv, hu⟩, ht⟩ => ⟨v, hv, u, hu, ht⟩⟩

/-- A run from a shutdown or a terminal trap stays there (R145, R231). -/
theorem reaches_done_iff {s t : State} (hs : s.run = .shutdown ∨ ∃ r, s.run = .trapped r) (k : Nat) :
    Reaches k s t ↔ t = s := by
  induction k with
  | zero => exact reaches_zero
  | succ k ih => simp [reaches_succ, step, stepOn_done hs, ih]

/-- A run that ends normally enters Shutdown in one of its steps, and ends in the state it enters. -/
theorem exists_step_of_reaches_shutdown {k : Nat} {s t : State} (hs : s.run ≠ .shutdown)
    (h : Reaches k s t) (ht : t.run = .shutdown) :
    ∃ j u, Reaches j s u ∧ step u = .next t ∧ u.run ≠ .shutdown := by
  induction k generalizing s with
  | zero => exact absurd (reaches_zero.1 h ▸ ht) hs
  | succ k ih =>
    obtain ⟨v, hstep, hrest⟩ := reaches_succ.1 h
    by_cases hv : v.run = .shutdown
    · obtain rfl := (reaches_done_iff (.inl hv) k).1 hrest
      exact ⟨0, s, reaches_zero.2 rfl, hstep, hs⟩
    · obtain ⟨j, u, hreach, hlast, hu⟩ := ih hv hrest
      exact ⟨j + 1, u, reaches_succ.2 ⟨v, hstep, hreach⟩, hlast, hu⟩

/-- Settles O15: the run enters Shutdown in one step, and that step is a SYSEXIT's. -/
theorem endsOnlyBySysexit : Obligations.EndsOnlyBySysexit := by
  intro s t hs
  constructor
  · rintro ⟨k, hreach, ht⟩
    obtain ⟨j, u, hu, hlast, hrun⟩ := exists_step_of_reaches_shutdown hs hreach ht
    exact ⟨j, u, hu, executesSysexit_iff.2 ⟨hlast, hrun, ht⟩⟩
  · rintro ⟨k, u, hu, hsysexit⟩
    obtain ⟨hlast, -, ht⟩ := executesSysexit_iff.1 hsysexit
    exact ⟨k + 1, reaches_succ_last.2 ⟨u, hu, hlast⟩, ht⟩

end Sys2Proof.Machine
end

section
/-! The reference codec (R103 to R113): encoding and decoding are inverse, the length of an
encoding, and which bytes the decoder needs. -/

namespace Sys2Proof

/-! ### Lengths -/

@[simp] theorem encodeSize_length (sz : Size) : (encodeSize sz).length = sz.prefixLength := by
  cases sz <;> rfl

/-- The bytes of an encoding are those R113 counts: prefix, opcode, operands. -/
theorem encode_length (bo : ByteOrder) (i : Instr) : (encode bo i).length = i.length := by
  cases i with
  | nop | ud | hlt | cpuid | ret | sysexit | brk => rfl
  | int o | call o | jmp o | jne o =>
    simp only [encode, List.length_cons, encodeSource_length, Instr.length]
    omega
  | push sz o | pop sz d =>
    simp only [encode, List.length_append, List.length_cons, encodeSize_length, encodeSource_length,
      Instr.length]
    omega
  | mov sz d o | cmp sz d o =>
    simp only [encode, List.length_append, List.length_cons, encodeSize_length, encodeSource_length,
      Instr.length]
    omega

theorem Instr.length_pos (i : Instr) : 1 ≤ i.length := by
  cases i <;> simp only [Instr.length] <;> omega

/-- Settles O3: the parts of an encoding are counted one by one. -/
theorem instructionLengths : Obligations.InstructionLengths := fun bo i =>
  ⟨encode_length bo i, i.length_pos, encode_length bo i ▸ encode_length_le bo i⟩

/-! ### Encoding, then decoding -/

/-- Every instruction meets the round trip that `Laws.RoundTrip` states for each. -/
theorem roundTrip (i : Instr) : Laws.RoundTrip.Statement i :=
  match i with
  | .nop => Laws.RoundTrip.nop
  | .ud => Laws.RoundTrip.ud
  | .hlt => Laws.RoundTrip.hlt
  | .int o => Laws.RoundTrip.int o
  | .mov sz d o => Laws.RoundTrip.mov sz d o
  | .push sz o => Laws.RoundTrip.push sz o
  | .pop sz d => Laws.RoundTrip.pop sz d
  | .cpuid => Laws.RoundTrip.cpuid
  | .call o => Laws.RoundTrip.call o
  | .ret => Laws.RoundTrip.ret
  | .jmp o => Laws.RoundTrip.jmp o
  | .sysexit => Laws.RoundTrip.sysexit
  | .cmp sz a o => Laws.RoundTrip.cmp sz a o
  | .jne o => Laws.RoundTrip.jne o
  | .brk => Laws.RoundTrip.brk

theorem decode_encode {i : Instr} (hwf : i.WellFormed) (bo : ByteOrder) :
    decode bo (encode bo i) = .ok (i, i.length) := by
  rw [Machine.decode_encode_of_roundTrip (roundTrip i) hwf, encode_length]

/-- Settles O1: the encoding alone decodes to the instruction, and the bytes after it do not change
that. -/
theorem decodeOfEncode : Obligations.DecodeOfEncode := fun bo _ rest hwf =>
  decode_append_ok (decode_encode hwf bo) rest

/-- Settles O6: each of the byte strings is the encoding of the instruction named beside it. -/
theorem writtenWordsDecode : Obligations.WrittenWordsDecode :=
  ⟨decode_encode (i := .nop) rfl .little,
    decode_encode (i := .mov .q (.reg 0) (.reg 1)) rfl .little,
    decode_encode (i := .mov .w (.reg 8) (.reg 3)) rfl .little,
    decode_encode (i := .cmp .b (.reg 2) (.imm 0x7F)) rfl .little,
    decode_encode (i := .jmp (.reg 0)) rfl .little,
    decode_encode (i := .brk) rfl .little,
    decode_encode (i := .call (.imm 0x2000)) rfl .little,
    decode_encode (i := .jne (.imm 0x1000)) rfl .little⟩

/-! ### Decoding, then encoding -/

/-- Bytes that decode begin with the encoding of the well-formed instruction they decode to. -/
theorem decode_ok {bo : ByteOrder} {bs : List Byte} {i : Instr} {n : Nat}
    (h : decode bo bs = .ok (i, n)) :
    i.WellFormed ∧ n = i.length ∧ encode bo i <+: bs := by
  have hn : n = i.length := (Machine.decode_ok_length h).trans (encode_length bo i)
  unfold decode at h
  cases hrest : decodeRest bo bs with
  | error e => simp [hrest] at h
  | ok p =>
    obtain ⟨j, rest⟩ := p
    rw [hrest] at h
    cases h
    obtain ⟨hbs, hwf⟩ := Machine.decodeRest_ok hrest
    exact ⟨hwf, hn, rest, hbs.symm⟩

/-- Settles O2: the encoding is a prefix of the bytes, as long as the instruction. -/
theorem encodeOfDecode : Obligations.EncodeOfDecode := by
  intro bo bs i n h
  obtain ⟨hwf, rfl, hprefix⟩ := decode_ok h
  refine ⟨hwf, rfl, ?_, ?_⟩
  · exact encode_length bo i ▸ hprefix.length_le
  · exact encode_length bo i ▸ List.prefix_iff_eq_take.1 hprefix

/-! ### The bytes the decoder needs -/

/-- Settles O4: an instruction and a decode fault are each kept by the bytes that follow. -/
theorem laterBytesDoNotMatter : Obligations.LaterBytesDoNotMatter := by
  intro bo bs more hanswer
  cases h : decode bo bs with
  | ok p => exact decode_append_ok h more
  | error e => exact decode_append_error h (fun he => hanswer (he ▸ h)) more

/-- Settles O5: were a proper prefix answered, the whole encoding would have the same answer, which
is the instruction with its full length. -/
theorem everyByteIsNeeded : Obligations.EveryByteIsNeeded := by
  intro bo i k hwf hk
  by_contra hanswer
  have hwhole : decode bo ((encode bo i).take k) = .ok (i, i.length) := by
    rw [← laterBytesDoNotMatter bo _ ((encode bo i).drop k) hanswer, List.take_append_drop]
    exact decode_encode hwf bo
  obtain ⟨-, -, hle, -⟩ := encodeOfDecode bo _ _ _ hwhole
  have hshort := List.length_take_le k (encode bo i)
  omega

end Sys2Proof
end

section
/-! The whole machine (R29, R34 to R40, R72, R80, R224): what every step keeps of the fixed state,
of memory and of the record of written bytes, and the invariant. -/

namespace Sys2Proof.Machine

/-! ### What a step keeps -/

/-- All that a step may do to the fixed state and to memory: nothing to the one, and to the other at
most one store into accessible bytes. -/
structure StepEffect (s t : State) : Prop where
  seg : t.seg = s.seg
  amode : t.amode = s.amode
  mmodel : t.mmodel = s.mmodel
  cfg : t.cfg = s.cfg
  controlFlags : SameControlFlags s t
  mem : MemEffect s t

/-- Only the instruction in a step has an effect; the boundary, the fetch and a trap have none. -/
theorem step_effect {s t : State} (h : step s = .next t) : StepEffect s t := by
  cases step_cases h with
  | done _ ht | interrupt _ _ _ _ ht | wait _ _ ht | decodeFault _ _ _ _ ht =>
    subst ht
    exact ⟨rfl, rfl, rfl, rfl, ⟨rfl, rfl, rfl, rfl⟩, memEffect_same rfl rfl⟩
  | instr i n u _ _ _ he ht =>
    obtain ⟨⟨⟨hseg, hamode, hmmodel, hcfg, -, -⟩, hflags⟩, hmem, -⟩ := exec_effect he
    obtain ⟨-, rfl⟩ | ⟨-, -, rfl⟩ := ht
    · exact ⟨hseg, hamode, hmmodel, hcfg, hflags, hmem⟩
    · exact ⟨hseg, hamode, hmmodel, hcfg, hflags, hmem⟩

/-- Settles O22: the first five parts of a step's effect. -/
theorem fixedStateStays : Obligations.FixedStateStays := fun _ _ h =>
  have heffect := step_effect h
  ⟨heffect.seg, heffect.amode, heffect.mmodel, heffect.cfg, heffect.controlFlags⟩

/-! ### Memory and the record of written bytes -/

/-- A byte in an accessible range is present and not reserved (R68). -/
theorem State.accessible.mem_range {s : State} {a : Word} {n k : Nat} (h : s.accessible a n)
    (hlo : a.toNat ≤ k) (hhi : k < a.toNat + n) :
    k < 2 ^ 64 ∧ s.isPresent k = true ∧ s.isReserved k = false := by
  obtain ⟨hspace, -, -, hbytes⟩ := h
  obtain ⟨hreserved, hpresent⟩ := hbytes (k - a.toNat) (by omega)
  rw [Nat.add_sub_cancel' hlo] at hreserved hpresent
  exact ⟨by omega, hpresent, hreserved⟩

/-- What an instruction does to one address: it keeps the byte and the record, or the address is
recorded, present and not reserved. -/
theorem MemEffect.at {s t : State} (h : MemEffect s t) (k : Nat) :
    (t.byteAt k = s.byteAt k ∧ (k ∈ t.written ↔ k ∈ s.written)) ∨
      (k ∈ t.written ∧ k < 2 ^ 64 ∧ s.isPresent k = true ∧ s.isReserved k = false) := by
  obtain ⟨hmem, hwritten⟩ | ⟨a, bs, haccess, hmem, hwritten⟩ := h
  · exact .inl ⟨congrArg (Memory.read · k) hmem, by rw [hwritten]⟩
  · rw [hwritten, mem_addrInsertRange]
    by_cases hk : a.toNat ≤ k ∧ k < a.toNat + bs.length
    · exact .inr ⟨.inl hk, haccess.mem_range hk.1 hk.2⟩
    · refine .inl ⟨?_, by simp only [hk, false_or]⟩
      rw [State.byteAt, hmem, Memory.read_writeBytes_out _ hk]
      rfl

/-- Settles O23: a step stores only at addresses that are present and not reserved. -/
theorem reservedMemoryStays : Obligations.ReservedMemoryStays := by
  intro s t a h ha
  obtain ⟨hsame, -⟩ | ⟨-, -, hpresent, hreserved⟩ := (step_effect h).mem.at a
  · exact hsame
  · simp [hpresent, hreserved] at ha

/-- Settles O24: a step stores only at addresses it records, and it removes none. -/
theorem writtenRecordIsComplete : Obligations.WrittenRecordIsComplete := by
  intro s t h
  refine ⟨fun a hchanged => ?changed, fun a hold => ?kept⟩
  case changed =>
    obtain ⟨hsame, -⟩ | ⟨hwritten, -⟩ := (step_effect h).mem.at a
    · exact absurd hsame hchanged
    · exact hwritten
  case kept =>
    obtain ⟨-, hrecord⟩ | ⟨hwritten, -⟩ := (step_effect h).mem.at a
    · exact hrecord.2 hold
    · exact hwritten

/-! ### The invariant -/

/-- A store into accessible bytes keeps the canonical form, the address space and the order of the
record. -/
theorem MemEffect.canonical {s t : State} (h : MemEffect s t) (hwf : s.mem.wf = true)
    (hspace : s.mem.inSpace = true) (hrising : addrRising s.written = true) :
    t.mem.wf = true ∧ t.mem.inSpace = true ∧ addrRising t.written = true := by
  obtain ⟨hmem, hwritten⟩ | ⟨a, bs, ⟨htop, -⟩, hmem, hwritten⟩ := h
  · rw [hmem, hwritten]
    exact ⟨hwf, hspace, hrising⟩
  · rw [hmem, hwritten]
    exact ⟨Memory.wf_writeBytes hwf _ _, Memory.inSpace_writeBytes hspace htop,
      addrRising_insertRange hrising _ _⟩

/-- No step raises a reserved code: none of the causes of R227 has one (R224). -/
theorem step_trap_code {s t : State} {r : TrapRecord} (h : step s = .next t)
    (hactive : s.run = .running ∨ s.run = .halted) (htrap : t.run = .trapped r) :
    codeKind r.code ≠ .reserved := by
  rw [Ne, codeKind_eq_reserved_iff]
  obtain ⟨hc, -⟩ | ⟨hc, -⟩ | ⟨hc, -⟩ | ⟨hc, -⟩ | ⟨-, n, -, hc⟩ | ⟨hrange, -⟩ :=
    raisableCodes s t r h hactive htrap
  · simp [hc]
  · simp [hc]
  · simp [hc]
  · simp [hc]
  · have hcode : (BitVec.ofNat 8 (32 + n.val)).toNat = 32 + n.val := by
      rw [BitVec.toNat_ofNat]
      omega
    rw [hc, hcode]
    omega
  · omega

/-- Settles O20: the store of a step keeps memory and the record as they must be, the setup stays,
and a new trap has a code that is not reserved. -/
theorem stepKeepsInvariant : Obligations.StepKeepsInvariant := by
  intro s t ⟨hwf, hspace, hrising, hrecord, hsegments, hcodes⟩ h
  have heffect := step_effect h
  obtain ⟨hwf', hspace', hrising'⟩ := heffect.mem.canonical hwf hspace hrising
  refine ⟨hwf', hspace', hrising', fun k hk => ?record, fun hflat => ?segments, fun r hr => ?codes⟩
  case record =>
    rw [State.isPresent, State.isReserved, heffect.cfg]
    obtain ⟨-, hold⟩ | ⟨-, hplace⟩ := heffect.mem.at k
    · exact hrecord k (hold.1 hk)
    · exact hplace
  case segments => rw [heffect.seg, hsegments (heffect.mmodel ▸ hflat)]
  case codes =>
    cases hrun : s.run with
    | running => exact step_trap_code h (.inl hrun) hr
    | halted => exact step_trap_code h (.inr hrun) hr
    | shutdown | trapped r' =>
      obtain rfl : t = s := by simpa [step, stepOn_done, hrun, eq_comm] using h
      exact hcodes r hr

theorem ofLaunch_inv {l : Launch} (hwf : Memory.wf l.mem = true)
    (hspace : Memory.inSpace l.mem = true) : (State.ofLaunch l).Inv :=
  ⟨hwf, hspace, rfl, nofun, fun _ => rfl, nofun⟩

/-- Settles O21: after reset nothing is written or trapped and the segment registers are 0; the
memory of `State.reset` is empty. -/
theorem resetHasInvariant : Obligations.ResetHasInvariant :=
  ⟨ofLaunch_inv (l := Launch.default) rfl rfl, fun _ => ofLaunch_inv⟩

/-- Settles O26: each value is a field of `State.ofLaunch`. -/
theorem resetValues : Obligations.ResetValues :=
  ⟨fun _ => ⟨rfl, rfl, rfl, rfl, rfl, rfl, rfl, rfl, rfl⟩, Launch.default, rfl⟩

end Sys2Proof.Machine
end

section
/-! The step cycle (R11, R142, R145, R228, R231): a step that runs what it decoded, external
interrupts, halts, and the function parameters CODEC and TRAP_HANDLER (R101, R231). -/

namespace Sys2Proof.Machine

/-! ### The instruction a step runs -/

/-- Settles O9: the state that runs the instruction is the fetching state with `pc` advanced. -/
theorem stepRunsDecoded : Obligations.StepRunsDecoded := by
  intro s bs i n hrun haccepted hfetch hdecode
  have hread : s.fetchState.fetchDecode = .ok (i, n) := fetchDecode_ok hfetch hdecode
  rw [step_running hrun haccepted, hread]
  rfl

/-! ### External interrupts -/

theorem accepted_of_IF_clear {s : State} (h : s.flags.IF = false) : s.accepted = none := by
  simp [State.accepted, h]

theorem accepted_of_presented {s : State} {n : Fin 224} (hIF : s.flags.IF = true)
    (hn : s.presented = some n) : s.accepted = some (externalCode n) := by
  simp [State.accepted, hIF, hn]

/-- An interrupt to take is taken before anything else, with `pc` as it was (R228). -/
theorem step_interrupt {s : State} {c : Code} (hactive : s.run = .running ∨ s.run = .halted)
    (h : s.accepted = some c) : step s = takeTrap s.passBoundary c s.pc s.pc :=
  (stepOn_interrupt hactive h defaultPlatform).trans (deliver_terminal _)

/-- Without an interrupt to take, a step sees its state only as the boundary leaves it. -/
theorem step_congr_of_passBoundary {s t : State} (hactive : s.run = .running ∨ s.run = .halted)
    (hs : s.accepted = none) (ht : t.accepted = none) (h : t.passBoundary = s.passBoundary) :
    step t = step s := by
  have hrun : t.run = s.run := congrArg (·.run) h
  have hfetch : t.fetchState = s.fetchState := congrArg State.beginInstr h
  obtain hs' | hs' := hactive
  · rw [step_running hs' hs, step_running (hrun.trans hs') ht, hfetch]
  · rw [step, step, stepOn_halted hs' hs, stepOn_halted (hrun.trans hs') ht, h]

/-- Settles O11: IF decides whether the presented code is accepted, and a code that is not accepted
is gone once the boundary has passed. -/
theorem externalInterrupt : Obligations.ExternalInterrupt := by
  refine ⟨fun s n hactive hn => ⟨fun hIF => ?taken, fun hIF => ?ignored⟩, fun s t h => ?kept⟩
  case taken =>
    rw [step_interrupt hactive (accepted_of_presented hIF hn)]
    exact takeTrap_trapTaken ..
  case ignored =>
    have hnone : State.accepted { s with inputs := none :: s.inputs.tail } = none :=
      accepted_of_IF_clear hIF
    exact (step_congr_of_passBoundary hactive (accepted_of_IF_clear hIF) hnone rfl).symm
  case kept =>
    obtain ⟨-, hIF, -⟩ := (step_effect h).controlFlags
    exact hIF

/-! ### Halts and final states -/

theorem step_halted {s : State} (hrun : s.run = .halted) (haccepted : s.accepted = none) :
    step s = .next s.passBoundary := stepOn_halted hrun haccepted defaultPlatform

/-- Settles O12: only the boundary passes. -/
theorem haltWaits : Obligations.HaltWaits := fun _ => step_halted

/-- `t` is `s` some boundaries later in a halt that nothing can end. -/
def StillStuck (s t : State) : Prop :=
  t.stuck ∧ t.pc = s.pc ∧ t.x = s.x ∧ t.flags = s.flags ∧ t.mem = s.mem

/-- With IF = 0 no interrupt is accepted, so a halted CPU waits, still halted (R142 corner a). -/
theorem step_stuck {s : State} (h : s.stuck) :
    step s = .next s.passBoundary ∧ s.passBoundary.stuck :=
  ⟨step_halted h.1 (accepted_of_IF_clear h.2), h⟩

theorem exists_reaches_stillStuck (k : Nat) {s : State} (h : s.stuck) :
    ∃ t, Reaches k s t ∧ StillStuck s t := by
  induction k generalizing s with
  | zero => exact ⟨s, reaches_zero.2 rfl, h, rfl, rfl, rfl, rfl⟩
  | succ k ih =>
    obtain ⟨hstep, hnext⟩ := step_stuck h
    obtain ⟨t, hreach, hstill⟩ := ih hnext
    exact ⟨t, reaches_succ.2 ⟨s.passBoundary, hstep, hreach⟩, hstill⟩

/-- A run of a given length reaches one state. -/
theorem reaches_unique {k : Nat} {s t u : State} (ht : Reaches k s t) (hu : Reaches k s u) :
    t = u := by
  unfold Reaches at ht hu
  rw [ht] at hu
  cases hu
  rfl

/-- Settles O13: every state the run reaches is still halted with IF = 0, so none is shut down. -/
theorem stuckHaltNeverEnds : Obligations.StuckHaltNeverEnds := by
  refine fun s h => ⟨fun k => exists_reaches_stillStuck k h, ?_⟩
  rintro ⟨t, k, hreach, hshutdown⟩
  obtain ⟨u, hreach', ⟨hhalted, -⟩, -⟩ := exists_reaches_stillStuck k h
  obtain rfl := reaches_unique hreach hreach'
  simp [hhalted] at hshutdown

/-- Settles O14: a run from a final state reaches that state only. -/
theorem finalStatesStay : Obligations.FinalStatesStay := fun _ k hs => (reaches_done_iff hs k).2 rfl

/-! ### CODEC -/

/-- The bytes of the window are those fetched from `k` up. -/
theorem fetchWindow_getElem {f : Nat → Res Byte} {k n j : Nat}
    (hj : j < (fetchWindow f k n).1.length) :
    f (k + j) = .ok (fetchWindow f k n).1[j] := by
  induction n generalizing k j with
  | zero => simp [fetchWindow] at hj
  | succ n ih =>
    cases hb : f k with
    | error e => simp [fetchWindow, hb] at hj
    | ok b =>
      simp only [fetchWindow, hb] at hj ⊢
      cases j with
      | zero => exact hb
      | succ j =>
        rw [show k + (j + 1) = k + 1 + j from by omega]
        exact ih (by simpa using hj)

/-- An encoding is its size prefix, if it has one, its opcode byte and its operands (R103). -/
theorem encode_eq_opcode (bo : ByteOrder) (i : Instr) :
    ∃ sz operands, encode bo i = encodeSize sz ++ i.opcode.byte :: operands := by
  cases i with
  | mov sz _ _ | push sz _ | pop sz _ | cmp sz _ _ => exact ⟨sz, _, rfl⟩
  | nop | ud | hlt | int _ | cpuid | call _ | ret | jmp _ | sysexit | jne _ | brk =>
    exact ⟨.q, _, rfl⟩

/-- Behind a size prefix or first, the opcode byte is the one that RC reads as such (R103, R104). -/
theorem opcodeByteFrom_of_fetched {f : Nat → Res Byte} {k : Nat} {sz : Size} {op : Opcode}
    {operands : List Byte}
    (h : ∀ j (hj : j < (encodeSize sz ++ op.byte :: operands).length),
      f (k + j) = .ok (encodeSize sz ++ op.byte :: operands)[j]) :
    opcodeByteFrom f k = .ok op.byte := by
  have h0 := h 0 (by simp)
  cases sz with
  | q =>
    have hfirst : f k = .ok op.byte := h0
    simp only [opcodeByteFrom, hfirst, sizeOfPrefix_opcode]
  | b | w | d =>
    have hsecond : f (k + 1) = .ok op.byte := h 1 (by simp [encodeSize])
    rw [opcodeByteFrom, show f k = _ from h0]
    exact hsecond

theorem decodeFrom_ok {bo : ByteOrder} {f : Nat → Res Byte} {k n : Nat} {i : Instr}
    (h : decodeFrom bo f k = .ok (i, n)) :
    decode bo (fetchWindow f k maxInstrLength).1 = .ok (i, n) := by
  unfold decodeFrom at h
  split at h
  · next hdecode => cases h; exact hdecode
  all_goals cases h

/-- An instruction that RC reads is well formed, and of the mnemonic of its opcode byte (R109). -/
theorem decodeFrom_mnemonic {bo : ByteOrder} {f : Nat → Res Byte} {k n : Nat} {i : Instr}
    (h : decodeFrom bo f k = .ok (i, n)) :
    i.WellFormed ∧ opcodeByteFrom f k = .ok i.opcode.byte := by
  obtain ⟨hwf, -, more, hwindow⟩ := decode_ok (decodeFrom_ok h)
  obtain ⟨sz, operands, henc⟩ := encode_eq_opcode bo i
  rw [henc, List.append_assoc, List.cons_append] at hwindow
  refine ⟨hwf, opcodeByteFrom_of_fetched (sz := sz) (operands := operands ++ more) fun j hj => ?_⟩
  simp only [hwindow] at hj ⊢
  exact fetchWindow_getElem hj

/-- Fetched bytes that are a decode fault raise Invalid Opcode (R110, R112). -/
theorem decodeFrom_of_decodeFault {bo : ByteOrder} {f : Nat → Res Byte} {k : Nat} {bs : List Byte}
    (h : ∀ j (hj : j < bs.length), f (k + j) = .ok bs[j]) (hlen : bs.length ≤ maxInstrLength)
    (hfault : DecodeFault bo bs) : decodeFrom bo f k = .error (.raise Code.invalidOpcode) := by
  obtain ⟨e, he, hdecode⟩ := hfault
  obtain ⟨more, hmore⟩ := fetchWindow_take (n := maxInstrLength) h
  rw [List.take_of_length_le hlen] at hmore
  unfold decodeFrom
  rw [← hmore, decode_append_error hdecode he]
  cases e with
  | needMore => exact absurd rfl he
  | reservedOpcode | sizePrefixNotAllowed | reservedDescriptor | kindNotAccepted => rfl

theorem fetched_singleton {f : Nat → Res Byte} {k : Nat} {b : Byte} (h : f k = .ok b) :
    ∀ j (hj : j < [b].length), f (k + j) = .ok [b][j]
  | 0, _ => h

theorem fetched_pair {f : Nat → Res Byte} {k : Nat} {p b : Byte} (h : f k = .ok p)
    (h' : f (k + 1) = .ok b) : ∀ j (hj : j < [p, b].length), f (k + j) = .ok [p, b][j]
  | 0, _ => h
  | 1, _ => h'

/-- An opcode byte that the map of R109 does not list is Invalid Opcode (R110). -/
theorem decodeFrom_reserved (bo : ByteOrder) {f : Nat → Res Byte} {k : Nat} {b : Byte}
    (h : opcodeByteFrom f k = .ok b) (hb : Opcode.ofByte b = none) :
    decodeFrom bo f k = .error (.raise Code.invalidOpcode) := by
  unfold opcodeByteFrom at h
  split at h
  · cases h
  · next p hp =>
    split at h
    · next hnone =>
      cases h
      have hrest := decodeRest_reservedOpcode (bo := bo) (decodeHead_opcode hnone []) hb
      exact decodeFrom_of_decodeFault (fetched_singleton hp) (by simp [maxInstrLength])
        (decodeFault_of_decodeRest hrest nofun)
    · next sz hsz =>
      have hrest := decodeRest_reservedOpcode (bo := bo) (decodeHead_prefix hsz b []) hb
      exact decodeFrom_of_decodeFault (fetched_pair hp h) (by simp [maxInstrLength])
        (decodeFault_of_decodeRest hrest nofun)

theorem opcodeByteFrom_congr {f g : Nat → Res Byte} {k : Nat} (h : ∀ j, k ≤ j → f j = g j) :
    opcodeByteFrom f k = opcodeByteFrom g k := by
  unfold opcodeByteFrom
  rw [h k (Nat.le_refl k), h (k + 1) (Nat.le_succ k)]

theorem decodeFrom_congr (bo : ByteOrder) {f g : Nat → Res Byte} {k : Nat}
    (h : ∀ j, k ≤ j → f j = g j) : decodeFrom bo f k = decodeFrom bo g k := by
  unfold decodeFrom
  rw [fetchWindow_congr h]

/-- RC meets the contract of R101. -/
theorem referenceCodec_lawful : referenceCodec.Lawful where
  reads bo _ _ _ h := ⟨opcodeByteFrom_congr h, decodeFrom_congr bo h⟩
  mnemonic _ _ _ _ _ h := decodeFrom_mnemonic h
  reserved bo _ _ _ h hb := decodeFrom_reserved bo h hb
  stops _ _ _ _ h := decodeFrom_stop h

/-- A code that the codec of a platform raises goes to its TRAP_HANDLER with `at` and `next` both
`pc` (R101, R110, R231). -/
theorem stepOn_of_codec_raise {p : Platform} {s : State} {c : Code} (hrun : s.run = .running)
    (haccepted : s.accepted = none) (h : s.fetchState.decodeWith p.codec = .error (.raise c)) :
    stepOn p s = p.trapHandler s.fetchState c s.pc s.pc := by
  have hrunning : s.fetchState.setRun .running = s.fetchState := by
    rw [← hrun]
    rfl
  rw [stepOn_running hrun haccepted, h]
  show p.trapHandler (s.fetchState.setRun .running) c s.pc s.pc = _
  rw [hrunning]

/-- Settles O18: RC is lawful, and what a platform's codec answers decides its step. -/
theorem codecIsAParameter : Obligations.CodecIsAParameter := by
  refine ⟨referenceCodec_lawful, fun _ => rfl, fun p s i n hrun haccepted hread => ?instr,
    fun p s c hrun haccepted hraise => ?raise,
    fun p s b hlawful hrun haccepted hbyte hb => ?reserved⟩
  case instr =>
    have hdecode : s.fetchState.decodeWith p.codec = .ok (i, n) := hread
    rw [stepOn_running hrun haccepted, hdecode]
    rfl
  case raise => exact stepOn_of_codec_raise hrun haccepted hraise
  case reserved =>
    exact stepOn_of_codec_raise hrun haccepted (hlawful.reserved _ _ _ b hbyte (ofByte_reserved hb))

/-! ### TRAP_HANDLER -/

/-- A running or halted CPU is trapped with `pc` at the trap's `next`, whatever its codec (R231). -/
theorem stepOn_trap_pc {c : Codec} {s t : State} {r : TrapRecord}
    (hactive : s.run = .running ∨ s.run = .halted)
    (h : stepOn ⟨c, terminalHandler⟩ s = .next t) (htrap : t.run = .trapped r) : t.pc = r.next := by
  cases stepOn_cases h with
  | done hs ht => rcases hactive with ha | ha <;> simp [ha] at hs
  | wait hs _ ht => simp [ht, hs] at htrap
  | interrupt _ _ _ _ ht | decodeFault _ _ _ _ ht =>
    subst ht
    cases htrap
    rfl
  | instr i n u hrun _ _ he ht =>
    obtain ⟨-, rfl⟩ | ⟨-, -, rfl⟩ := ht
    · obtain ⟨ht, -⟩ := exec_trap he hrun htrap
      rw [ht]
      rfl
    · cases htrap
      rfl

/-- Settles O19: a handler is given the step's outcome with the default handler, and acts on a trap
only. -/
theorem trapHandlerDelivers : Obligations.TrapHandlerDelivers := by
  refine ⟨fun c h s hactive => ?active, fun p s hdone => stepOn_done hdone p⟩
  case active =>
    have hdeliver : stepOn ⟨c, h⟩ s = deliver h (stepOn ⟨c, terminalHandler⟩ s) :=
      stepOn_deliver hactive ⟨c, h⟩
    rw [hdeliver]
    refine ⟨fun t r hnext htrap => ⟨stepOn_trap_pc hactive hnext htrap, ?_⟩, fun t hnext hno => ?_,
      fun f hfault => ?_, fun r hrefused => ?_⟩
    · rw [hnext, deliver_trap h htrap]
    · rw [hnext, deliver_next h hno]
    · rw [hfault, deliver]
    · rw [hrefused, deliver]

end Sys2Proof.Machine
end

section
/-! State that no step reads (R29, R38, R236): every operation, every instruction and the step cycle
commute with the replacement of the segment registers and RF, and but for CPUID with that of
PROTECTED. -/

namespace Sys2Proof.Machine

section
variable (s : State) (seg : Segments) (rf prot : Bool)

/-! ### What a replacement leaves alone -/

theorem disguise_pc : (s.disguise seg rf prot).pc = s.pc := rfl
theorem disguise_ZF : (s.disguise seg rf prot).flags.ZF = s.flags.ZF := rfl
theorem disguise_narrowWrite :
    (s.disguise seg rf prot).cfg.narrowWrite = s.cfg.narrowWrite := rfl
theorem disguise_ccIsBreakpoint :
    (s.disguise seg rf prot).cfg.ccIsBreakpoint = s.cfg.ccIsBreakpoint := rfl

theorem fetchState_disguise :
    (s.disguise seg rf prot).fetchState = s.fetchState.disguise seg rf prot := rfl
theorem advance_disguise (n : Nat) :
    (s.disguise seg rf prot).advance n = (s.advance n).disguise seg rf prot := rfl

/-! ### Operations -/

theorem check_disguise (a : Word) (n : Nat) :
    (s.disguise seg rf prot).check a n = s.check a n := rfl

theorem memRead_disguise (sz : Size) (a : Word) :
    (s.disguise seg rf prot).memRead sz a = s.memRead sz a := rfl

theorem memWrite_disguise (sz : Size) (a : Word) (v : BitVec sz.bits) :
    (s.disguise seg rf prot).memWrite sz a v =
      (s.memWrite sz a v).map (·.disguise seg rf prot) := by
  unfold State.memWrite
  rw [check_disguise]
  cases s.check a sz.bytes <;> rfl

theorem source_disguise (sz : Size) (o : Source) :
    (s.disguise seg rf prot).source sz o = s.source sz o := by
  cases o <;> rfl

theorem writeView_disguise (sz : Size) (r : Reg) (v : BitVec sz.bits) :
    (s.disguise seg rf prot).writeView sz r v = (s.writeView sz r v).disguise seg rf prot := by
  unfold State.writeView
  rw [disguise_narrowWrite]
  split
  · rfl
  · cases s.cfg.narrowWrite with
    | preserve | havoc => rfl
    | zero32 => dsimp only; split <;> rfl

theorem writeDest_disguise (sz : Size) (d : Dest) (v : BitVec sz.bits) :
    (s.disguise seg rf prot).writeDest sz d v =
      (s.writeDest sz d v).map (·.disguise seg rf prot) := by
  cases d with
  | reg r => exact congrArg Except.ok (writeView_disguise s seg rf prot sz r v)
  | mem a => exact memWrite_disguise s seg rf prot sz a v

theorem push_disguise (sz : Size) (v : BitVec sz.bits) :
    (s.disguise seg rf prot).push sz v = (s.push sz v).map (·.disguise seg rf prot) := by
  unfold State.push
  rw [show (s.disguise seg rf prot).pushAddr sz = s.pushAddr sz from rfl, memWrite_disguise]
  cases s.memWrite sz (s.pushAddr sz) v <;> rfl

theorem pop_disguise (sz : Size) :
    (s.disguise seg rf prot).pop sz =
      (s.pop sz).map fun p => (p.1, p.2.disguise seg rf prot) := by
  unfold State.pop
  rw [show (s.disguise seg rf prot).popAddr sz = s.popAddr sz from rfl, memRead_disguise]
  cases s.memRead sz (s.popAddr sz) <;> rfl

theorem applyWrites_disguise (ws : List (Reg × Word)) :
    (s.disguise seg rf prot).applyWrites ws = (s.applyWrites ws).disguise seg rf prot := by
  induction ws generalizing s with
  | nil => rfl
  | cons w ws ih => exact ih (s.setReg w.1 w.2)

theorem complete_disguise (r : Res State) :
    complete (s.disguise seg rf prot) (r.map (·.disguise seg rf prot)) =
      mapNext (·.disguise seg rf prot) (complete s r) := by
  cases r with
  | ok t => rfl
  | error e => cases e <;> rfl

/-- A rule that stops stops in the same way. -/
theorem complete_error_disguise (e : Stop) :
    complete (s.disguise seg rf prot) (.error e) =
      mapNext (·.disguise seg rf prot) (complete s (.error e)) :=
  complete_disguise s seg rf prot (.error e)

/-! ### Instructions -/

theorem execMov_disguise (sz : Size) (d : Dest) (o : Source) :
    execMov sz d o (s.disguise seg rf prot) =
      mapNext (·.disguise seg rf prot) (execMov sz d o s) := by
  unfold execMov
  rw [source_disguise, ← complete_disguise]
  cases s.source sz o with
  | ok v => simp only [writeDest_disguise]
  | error e => rfl

theorem execPush_disguise (sz : Size) (o : Source) :
    execPush sz o (s.disguise seg rf prot) =
      mapNext (·.disguise seg rf prot) (execPush sz o s) := by
  unfold execPush
  rw [source_disguise, ← complete_disguise]
  cases s.source sz o with
  | ok v => simp only [push_disguise]
  | error e => rfl

theorem execPop_disguise (sz : Size) (d : Dest) :
    execPop sz d (s.disguise seg rf prot) =
      mapNext (·.disguise seg rf prot) (execPop sz d s) := by
  unfold execPop
  rw [pop_disguise, ← complete_disguise]
  cases s.pop sz with
  | ok p => simp only [Except.map, writeDest_disguise]
  | error e => rfl

theorem execCall_disguise (o : Source) :
    execCall o (s.disguise seg rf prot) = mapNext (·.disguise seg rf prot) (execCall o s) := by
  unfold execCall
  rw [disguise_pc, push_disguise, ← complete_disguise]
  cases s.push .q s.pc with
  | ok t =>
    simp only [Except.map, source_disguise]
    cases t.source .q o <;> rfl
  | error e => rfl

theorem execRet_disguise :
    execRet (s.disguise seg rf prot) = mapNext (·.disguise seg rf prot) (execRet s) := by
  unfold execRet
  rw [pop_disguise, ← complete_disguise]
  cases s.pop .q <;> rfl

theorem execJmp_disguise (o : Source) :
    execJmp o (s.disguise seg rf prot) = mapNext (·.disguise seg rf prot) (execJmp o s) := by
  unfold execJmp
  rw [source_disguise, ← complete_disguise]
  cases s.source .q o <;> rfl

theorem execJne_disguise (o : Source) :
    execJne o (s.disguise seg rf prot) = mapNext (·.disguise seg rf prot) (execJne o s) := by
  unfold execJne
  rw [source_disguise, disguise_ZF, ← complete_disguise]
  cases s.source .q o with
  | ok target => cases s.flags.ZF <;> rfl
  | error e => rfl

theorem execCmp_disguise (sz : Size) (a : Dest) (o : Source) :
    execCmp sz a o (s.disguise seg rf prot) =
      mapNext (·.disguise seg rf prot) (execCmp sz a o s) := by
  unfold execCmp
  rw [source_disguise, source_disguise, ← complete_disguise]
  cases s.source sz a.asSource with
  | ok va => cases s.source sz o <;> rfl
  | error e => rfl

theorem execInt_disguise (o : Source) :
    execInt o (s.disguise seg rf prot) = mapNext (·.disguise seg rf prot) (execInt o s) := by
  unfold execInt
  rw [source_disguise, ← complete_disguise]
  cases s.source .q o <;> rfl

/-- With PROTECTED as it was, CPUID_FN is asked the same and answers the same (R144). -/
theorem cpuidWrites_disguise :
    cpuidWrites (s.disguise seg rf s.cfg.protectedMode).cfg
        ((s.disguise seg rf s.cfg.protectedMode).reg Reg.rax)
        (s.disguise seg rf s.cfg.protectedMode).flags.ID =
      cpuidWrites s.cfg (s.reg Reg.rax) s.flags.ID := rfl

/-- CPUID reads PROTECTED (R144): only one that is not replaced goes unnoticed. -/
theorem execCpuid_disguise (hprot : prot = s.cfg.protectedMode) :
    execCpuid (s.disguise seg rf prot) = mapNext (·.disguise seg rf prot) (execCpuid s) := by
  subst hprot
  unfold execCpuid
  rw [cpuidWrites_disguise, ← complete_disguise]
  cases cpuidWrites s.cfg (s.reg Reg.rax) s.flags.ID with
  | some ws => simp only [applyWrites_disguise, Except.map]
  | none => rfl

theorem execBrk_disguise :
    execBrk (s.disguise seg rf prot) = mapNext (·.disguise seg rf prot) (execBrk s) := by
  unfold execBrk
  rw [disguise_ccIsBreakpoint]
  split <;> rfl

/-- No instruction reads a segment register or RF, and none but CPUID reads PROTECTED. -/
theorem exec_disguise (i : Instr) (hi : i = .cpuid → prot = s.cfg.protectedMode) :
    exec i (s.disguise seg rf prot) = mapNext (·.disguise seg rf prot) (exec i s) :=
  match i with
  | .nop | .ud | .hlt | .sysexit => rfl
  | .int o => execInt_disguise s seg rf prot o
  | .mov sz d o => execMov_disguise s seg rf prot sz d o
  | .push sz o => execPush_disguise s seg rf prot sz o
  | .pop sz d => execPop_disguise s seg rf prot sz d
  | .cpuid => execCpuid_disguise s seg rf prot (hi rfl)
  | .call o => execCall_disguise s seg rf prot o
  | .ret => execRet_disguise s seg rf prot
  | .jmp o => execJmp_disguise s seg rf prot o
  | .cmp sz a o => execCmp_disguise s seg rf prot sz a o
  | .jne o => execJne_disguise s seg rf prot o
  | .brk => execBrk_disguise s seg rf prot

/-! ### The step -/

theorem fetchDecode_disguise : (s.disguise seg rf prot).fetchDecode = s.fetchDecode := rfl

theorem singleStep_disguise (o : Host.Outcome State Fault Refusal) :
    singleStep (mapNext (·.disguise seg rf prot) o) =
      mapNext (·.disguise seg rf prot) (singleStep o) := by
  cases o with
  | next t =>
    by_cases h : t.run = .running ∧ t.flags.TF = true
    · obtain ⟨hrun, hTF⟩ := h
      rw [singleStep_of_traced hrun hTF]
      exact singleStep_of_traced (s := t.disguise seg rf prot) hrun hTF
    · have huntraced : t.run ≠ .running ∨ t.flags.TF = false := by simpa using not_and_or.1 h
      rw [singleStep_of_untraced huntraced]
      exact singleStep_of_untraced (s := t.disguise seg rf prot) huntraced
  | fault f | refused r => rfl

theorem step_interrupt_disguise {c : Code} (hactive : s.run = .running ∨ s.run = .halted)
    (hc : s.accepted = some c) :
    step (s.disguise seg rf prot) = mapNext (·.disguise seg rf prot) (step s) := by
  rw [step_interrupt hactive hc, step_interrupt (s := s.disguise seg rf prot) hactive hc]
  rfl

/-- The step commutes with the replacement, unless it executes a CPUID and PROTECTED is replaced. -/
theorem step_disguise
    (h : s.run = .running → s.accepted = none →
      ∀ n, s.fetchState.fetchDecode = .ok (.cpuid, n) → prot = s.cfg.protectedMode) :
    step (s.disguise seg rf prot) = mapNext (·.disguise seg rf prot) (step s) := by
  cases hrun : s.run with
  | shutdown | trapped r =>
    have hdone : s.run = .shutdown ∨ ∃ r, s.run = .trapped r := by simp [hrun]
    rw [step, step, stepOn_done hdone, stepOn_done (s := s.disguise seg rf prot) hdone]
    rfl
  | halted =>
    cases haccepted : s.accepted with
    | some c => exact step_interrupt_disguise s seg rf prot (.inr hrun) haccepted
    | none =>
      rw [step_halted hrun haccepted, step_halted (s := s.disguise seg rf prot) hrun haccepted]
      rfl
  | running =>
    cases haccepted : s.accepted with
    | some c => exact step_interrupt_disguise s seg rf prot (.inl hrun) haccepted
    | none =>
      rw [step_running hrun haccepted,
        step_running (s := s.disguise seg rf prot) hrun haccepted, fetchState_disguise,
        fetchDecode_disguise]
      cases hdecode : s.fetchState.fetchDecode with
      | ok p =>
        obtain ⟨i, n⟩ := p
        have hi : i = .cpuid → prot = s.cfg.protectedMode := by
          rintro rfl
          exact h hrun haccepted n hdecode
        dsimp only
        rw [advance_disguise, exec_disguise (s.fetchState.advance n) seg rf prot i hi,
          singleStep_disguise]
      | error e => exact complete_error_disguise s.fetchState seg rf prot e

end

/-- Settles O25: the step commutes with the replacement, since PROTECTED is kept in the first part
and in the second no CPUID runs. -/
theorem hiddenStateIsNotRead : Obligations.HiddenStateIsNotRead :=
  ⟨fun s seg rf => step_disguise s seg rf s.cfg.protectedMode fun _ _ _ _ => rfl,
    fun s seg rf prot hno => step_disguise s seg rf prot fun hrun haccepted n hcpuid =>
      absurd hcpuid (hno hrun haccepted n)⟩

end Sys2Proof.Machine
end

section
/-! Memory and fetch (R28, R67, R72, R74, R77, R80, R222): a read after a write, the byte that stops
a step's fetch, and Protection Exception for each access that touches reserved memory. -/

namespace Sys2Proof.Machine

/-! ### Read after write -/

theorem size_bytes_pos (sz : Size) : 0 < sz.bytes := by cases sz <;> decide

theorem State.accessible.le {s : State} {a : Word} {n m : Nat} (h : s.accessible a n)
    (hm : m ≤ n) : s.accessible a m := by
  obtain ⟨hspace, hamode, hmmodel, hbytes⟩ := h
  exact ⟨by omega, hamode, hmmodel, fun k hk => hbytes k (by omega)⟩

/-- Settles O28: the store put the value's bytes where a read of the same size looks for them, its
low byte first under little-endian order. -/
theorem readAfterWrite : Obligations.ReadAfterWrite := by
  intro s t sz a v hwf hwrite
  obtain ⟨haccess, rfl⟩ := (memWrite_ok_iff _ _ _ _ _).1 hwrite
  refine ⟨?same, fun hlittle => ?lowByte⟩
  case same => exact (memRead_ok_iff _ _ _ _).2 ⟨haccess, (memValue_storeBytes hwf sz a v).symm⟩
  case lowByte =>
    have hbyte := memWrite_extractByte hwf hwrite (k := 0) (size_bytes_pos sz)
    have hoffset : byteOffset s.cfg.byteOrder sz.bytes 0 = 0 := by rw [hlittle]; rfl
    rw [hoffset, Nat.add_zero, Nat.mul_zero] at hbyte
    have hfits : s.accessible a Size.b.bytes := haccess.le (size_bytes_pos sz)
    refine (memRead_ok_iff _ _ _ _).2 ⟨hfits, ?_⟩
    rw [memValue_b, ← hbyte]
    exact BitVec.setWidth_eq_extractLsb' (by cases sz <;> decide)

/-! ### The byte that stops the fetch -/

/-- What stops the fetch of a byte that the decoder needs stops the step (R113). -/
theorem step_of_neededByte_error {s : State} {bs : List Byte} {e : Stop} (hrun : s.run = .running)
    (haccepted : s.accepted = none) (hfetch : s.fetchState.fetches s.pc.toNat bs)
    (hneed : decode s.cfg.byteOrder bs = .error .needMore)
    (hstop : s.fetchState.fetchByte (s.pc.toNat + bs.length) = .error e) :
    step s = complete s.fetchState (.error e) := by
  have hdecode : s.fetchState.fetchDecode = .error e := fetchDecode_stop hfetch hneed hstop
  rw [step_running hrun haccepted, hdecode]

theorem fetchByte_fetchWraps (s : State) : s.fetchByte (2 ^ 64) = .error (.fault .fetchWraps) :=
  if_pos (Nat.le_refl _)

/-- A byte that fails the check of R68 is not fetched. -/
theorem fetchByte_of_check_error {s : State} {a : Word} {e : Stop} (h : s.check a 1 = .error e) :
    s.fetchByte a.toNat = .error e := by
  rw [State.fetchByte, if_neg (Nat.not_le.2 a.isLt), BitVec.ofNat_toNat, BitVec.setWidth_eq, h]

theorem toNat_add_length {pc : Word} {n : Nat} (h : pc.toNat + n < 2 ^ 64) :
    (pc + BitVec.ofNat 64 n).toNat = pc.toNat + n := by
  rw [BitVec.toNat_add, BitVec.toNat_ofNat]
  omega

theorem check_noMemory {s : State} {a : Word} (hamode : s.amode = .direct)
    (hmmodel : s.mmodel = .flat) (hreserved : s.isReserved a.toNat = false)
    (hpresent : s.isPresent a.toNat = false) : s.check a 1 = .error (.fault .noMemory) := by
  have hspace := a.isLt
  simp [State.check, allFrom, hamode, hmmodel, hreserved, hpresent]
  omega

theorem check_modeNotModelled {s : State} {a : Word} {n : Nat} (hspace : a.toNat + n ≤ 2 ^ 64)
    (hmode : s.amode = .virtual ∨ s.mmodel = .segmented) :
    s.check a n = .error (.refuse .modeNotModelled) := by
  have hmode' : s.amode ≠ .direct ∨ s.mmodel ≠ .flat := by
    rcases hmode with h | h <;> simp [h]
  rw [State.check, if_neg (Nat.not_lt.2 hspace), if_pos hmode']

/-- Settles O35: each of the three stops is what `fetchByte` answers for the needed byte. -/
theorem fetchStopsTheStep : Obligations.FetchStopsTheStep := by
  intro s bs hrun haccepted hfetch hneed
  refine ⟨fun htop => ?wraps, fun hspace hamode hmmodel hreserved hpresent => ?noMemory,
    fun hspace haccess hpolicy hwritten => ?written⟩
  case wraps =>
    exact step_of_neededByte_error hrun haccepted hfetch hneed
      (htop ▸ fetchByte_fetchWraps s.fetchState)
  case noMemory =>
    rw [← toNat_add_length hspace] at hreserved hpresent
    have hstop := fetchByte_of_check_error (s := s.fetchState)
      (check_noMemory hamode hmmodel hreserved hpresent)
    exact step_of_neededByte_error hrun haccepted hfetch hneed (toNat_add_length hspace ▸ hstop)
  case written =>
    rw [← toNat_add_length hspace] at hwritten
    have hstop := fetchByte_selfModifyingCode (s := s.fetchState) haccess ⟨hpolicy, hwritten⟩
    exact step_of_neededByte_error hrun haccepted hfetch hneed (toNat_add_length hspace ▸ hstop)

/-- Settles O33: the bytes below 2^64 are a proper prefix of the encoding, so the decoder needs the
one at 2^64. -/
theorem fetchAcrossTheTop : Obligations.FetchAcrossTheTop := by
  intro s i k hrun haccepted hwf hk htop hfetch
  have hneed := everyByteIsNeeded s.cfg.byteOrder i k hwf hk
  have hlen : ((encode s.cfg.byteOrder i).take k).length = k := by
    rw [List.length_take, encode_length]
    omega
  obtain ⟨hwraps, -⟩ := fetchStopsTheStep s _ hrun haccepted hfetch hneed
  exact hwraps (hlen.symm ▸ htop)

/-- Settles O32: the check of the first instruction byte refuses. -/
theorem otherModesAreRefused : Obligations.OtherModesAreRefused := by
  intro s hrun haccepted hmode
  have hcheck := check_modeNotModelled (a := s.pc) (n := 1) s.pc.isLt hmode
  exact step_of_fetchByte_refuse hrun haccepted (fetchByte_of_check_error hcheck)

/-! ### Protection Exception -/

/-- The trap `Trap(11, at, next)` of an instruction, with nothing changed (R222). -/
def RaisesProtection (i : Instr) (s : State) : Prop :=
  ∃ t, exec i s = .next t ∧ TrapTaken s 11 s.instrAt s.pc t

theorem raisesProtection_of_complete {i : Instr} {s : State}
    (h : exec i s = complete s (.error (.raise Code.protection))) : RaisesProtection i s := by
  rw [RaisesProtection, h]
  exact takeTrap_trapTaken ..

theorem check_of_hitsReserved {s : State} {a : Word} {n : Nat} (h : s.hitsReserved a n) :
    s.check a n = .error (.raise Code.protection) := (check_raise_iff s a n _).2 ⟨rfl, h⟩

/-- A destination in reserved memory (R76, R162). -/
theorem writeDest_mem_of_hitsReserved {s : State} {sz : Size} {a : Word}
    (h : s.hitsReserved a sz.bytes) (v : BitVec sz.bits) :
    s.writeDest sz (.mem a) v = .error (.raise Code.protection) :=
  (writeDest_error_iff s sz (.mem a) v _).2 ⟨a, rfl, check_of_hitsReserved h⟩

section
variable {s : State} {sz : Size} {o : Source} {e : Stop}

/-! The first access of an instruction that stops stops the instruction. -/

theorem exec_mov_of_source_error (d : Dest) (h : s.source sz o = .error e) :
    exec (.mov sz d o) s = complete s (.error e) := by
  show execMov sz d o s = _
  rw [execMov, h]

theorem exec_mov_of_writeDest_error {d : Dest} (ho : s.canRead sz o)
    (h : s.writeDest sz d (s.sourceValue sz o) = .error e) :
    exec (.mov sz d o) s = complete s (.error e) := by
  show execMov sz d o s = _
  rw [execMov, source_of_canRead ho]
  exact congrArg (complete s) h

theorem exec_push_of_source_error (h : s.source sz o = .error e) :
    exec (.push sz o) s = complete s (.error e) := by
  show execPush sz o s = _
  rw [execPush, h]

theorem exec_push_of_push_error (ho : s.canRead sz o)
    (h : s.push sz (s.sourceValue sz o) = .error e) :
    exec (.push sz o) s = complete s (.error e) := by
  show execPush sz o s = _
  rw [execPush, source_of_canRead ho]
  exact congrArg (complete s) h

theorem exec_pop_of_pop_error (d : Dest) (h : s.pop sz = .error e) :
    exec (.pop sz d) s = complete s (.error e) := by
  show execPop sz d s = _
  rw [execPop, h]

theorem exec_pop_of_writeDest_error {t : State} {d : Dest} {v : BitVec sz.bits}
    (hpop : s.pop sz = .ok (v, t)) (h : t.writeDest sz d v = .error e) :
    exec (.pop sz d) s = complete s (.error e) := by
  show execPop sz d s = _
  rw [execPop, hpop]
  exact congrArg (complete s) h

theorem exec_cmp_of_first_error {a : Dest} (h : s.source sz a.asSource = .error e) :
    exec (.cmp sz a o) s = complete s (.error e) := by
  show execCmp sz a o s = _
  rw [execCmp, h]

theorem exec_cmp_of_second_error {a : Dest} (ha : s.canRead sz a.asSource)
    (h : s.source sz o = .error e) : exec (.cmp sz a o) s = complete s (.error e) := by
  show execCmp sz a o s = _
  rw [execCmp, source_of_canRead ha, h]

theorem exec_jmp_of_source_error (h : s.source .q o = .error e) :
    exec (.jmp o) s = complete s (.error e) := by
  show execJmp o s = _
  rw [execJmp, h]

theorem exec_jne_of_source_error (h : s.source .q o = .error e) :
    exec (.jne o) s = complete s (.error e) := by
  show execJne o s = _
  rw [execJne, h]

theorem exec_call_of_push_error (o : Source) (h : s.push .q s.pc = .error e) :
    exec (.call o) s = complete s (.error e) := by
  show execCall o s = _
  rw [execCall, h]

theorem exec_call_of_source_error {t : State} (hpush : s.push .q s.pc = .ok t)
    (h : t.source .q o = .error e) : exec (.call o) s = complete s (.error e) := by
  show execCall o s = _
  rw [execCall, hpush]
  simp only [h]

theorem exec_ret_of_pop_error (h : s.pop .q = .error e) :
    exec .ret s = complete s (.error e) := by
  show execRet s = _
  rw [execRet, h]

end

/-- A needed byte in reserved memory traps with `at` and `next` both `pc` (R222, R232). -/
theorem step_of_neededByte_reserved {s : State} {bs : List Byte} (hrun : s.run = .running)
    (haccepted : s.accepted = none) (hfetch : s.fetchState.fetches s.pc.toNat bs)
    (hneed : decode s.cfg.byteOrder bs = .error .needMore)
    (hspace : s.pc.toNat + bs.length < 2 ^ 64)
    (hhits : s.hitsReserved (s.pc + BitVec.ofNat 64 bs.length) 1) :
    ∃ t, step s = .next t ∧ TrapTaken s.fetchState 11 s.pc s.pc t := by
  have hstop := fetchByte_of_check_error (check_of_hitsReserved (s := s.fetchState) hhits)
  rw [toNat_add_length hspace] at hstop
  rw [step_of_neededByte_error hrun haccepted hfetch hneed hstop]
  exact takeTrap_trapTaken ..

/-- Settles O34: in each form the first access that touches reserved memory raises, and it is what
the instruction or the step answers. -/
theorem reservedMemoryTraps : Obligations.ReservedMemoryTraps := by
  refine ⟨fun s a i hhits hi => ?quad, fun s sz a d o i hhits hi => ?operand,
    fun s sz o hhits ho => ?push, fun s o hhits => ?callSlot, fun s a hslot hhits => ?callOperand,
    fun s sz d hhits => ?popSlot, fun s sz a hslot hhits => ?popDest, fun s hhits => ?ret,
    fun s bs => step_of_neededByte_reserved⟩
  case quad =>
    have hsource : s.source .q (.mem a) = .error (.raise Code.protection) :=
      source_mem_of_hitsReserved hhits
    obtain rfl | rfl | rfl := hi
    · exact raisesProtection_of_complete (exec_int_of_source_error hsource)
    · exact raisesProtection_of_complete (exec_jmp_of_source_error hsource)
    · exact raisesProtection_of_complete (exec_jne_of_source_error hsource)
  case operand =>
    have hsource := source_mem_of_hitsReserved hhits
    obtain rfl | rfl | rfl | ⟨rfl, ho⟩ | ⟨rfl, hd⟩ := hi
    · exact raisesProtection_of_complete (exec_mov_of_source_error d hsource)
    · exact raisesProtection_of_complete (exec_push_of_source_error hsource)
    · exact raisesProtection_of_complete (exec_cmp_of_first_error hsource)
    · exact raisesProtection_of_complete
        (exec_mov_of_writeDest_error ho (writeDest_mem_of_hitsReserved hhits _))
    · exact raisesProtection_of_complete (exec_cmp_of_second_error hd hsource)
  case push =>
    have hpush := (push_error_iff s sz (s.sourceValue sz o) _).2 (check_of_hitsReserved hhits)
    exact raisesProtection_of_complete (exec_push_of_push_error ho hpush)
  case callSlot =>
    have hpush := (push_error_iff s .q s.pc _).2 (check_of_hitsReserved hhits)
    exact raisesProtection_of_complete (exec_call_of_push_error o hpush)
  case callOperand =>
    obtain ⟨t, hpush⟩ : ∃ t, s.push .q s.pc = .ok t := ⟨_, (push_ok_iff s .q s.pc _).2 ⟨hslot, rfl⟩⟩
    obtain ⟨hcfg, hamode, hmmodel⟩ := push_mode hpush
    have hcheck : t.check a 8 = .error (.raise Code.protection) :=
      (check_congr hcfg hamode hmmodel a 8).trans (check_of_hitsReserved hhits)
    have hsource := (source_error_iff t .q (.mem a) _).2 ⟨a, rfl, hcheck⟩
    exact raisesProtection_of_complete (exec_call_of_source_error hpush hsource)
  case popSlot =>
    have hpop := (pop_error_iff s sz _).2 (check_of_hitsReserved hhits)
    exact raisesProtection_of_complete (exec_pop_of_pop_error d hpop)
  case popDest =>
    have hpop := (pop_ok_iff s sz _ _).2 ⟨hslot, rfl, rfl⟩
    have hdest := writeDest_mem_of_hitsReserved
      (s := s.setReg Reg.rsp (s.sp + BitVec.ofNat 64 sz.bytes)) hhits
    exact raisesProtection_of_complete (exec_pop_of_writeDest_error hpop (hdest _))
  case ret =>
    have hpop := (pop_error_iff s .q _).2 (check_of_hitsReserved hhits)
    exact raisesProtection_of_complete (exec_ret_of_pop_error hpop)

end Sys2Proof.Machine
end

section
/-! Data movement and control transfer (R163 to R165, R180 to R183): each instruction whose accesses
are allowed as an equation, and from it the result and the frame. -/

namespace Sys2Proof.Machine

/-! ### Stores, pushes and pops that are allowed -/

/-- The state after a MemWrite that passes its check (R68). -/
def State.storeValue (s : State) (sz : Size) (a : Word) (v : BitVec sz.bits) : State :=
  s.storeBytes a (valueBytes s.cfg.byteOrder sz.bytes v.toNat)

/-- The state after a push that passes its check (R164, R180). -/
def State.pushed (s : State) (sz : Size) (v : BitVec sz.bits) : State :=
  (s.storeValue sz (s.pushAddr sz) v).setReg Reg.rsp (s.sp - BitVec.ofNat 64 sz.bytes)

/-- The state after a pop that passes its check (R165, R181). -/
def State.popped (s : State) (sz : Size) : State :=
  s.setReg Reg.rsp (s.sp + BitVec.ofNat 64 sz.bytes)

section
variable {s : State} {sz : Size}

theorem memWrite_of_accessible {a : Word} (h : s.accessible a sz.bytes) (v : BitVec sz.bits) :
    s.memWrite sz a v = .ok (s.storeValue sz a v) := (memWrite_ok_iff s sz a v _).2 ⟨h, rfl⟩

theorem push_of_accessible (h : s.accessible (s.pushAddr sz) sz.bytes) (v : BitVec sz.bits) :
    s.push sz v = .ok (s.pushed sz v) := (push_ok_iff s sz v _).2 ⟨h, rfl⟩

theorem pop_of_accessible (h : s.accessible (s.popAddr sz) sz.bytes) :
    s.pop sz = .ok (s.memValue sz (s.popAddr sz), s.popped sz) :=
  (pop_ok_iff s sz _ _).2 ⟨h, rfl, rfl⟩

theorem memValue_storeValue (hwf : s.mem.wf = true) (a : Word) (v : BitVec sz.bits) :
    (s.storeValue sz a v).memValue sz a = v := memValue_storeBytes hwf sz a v

theorem storedAt_storeValue (s : State) (a : Word) (v : BitVec sz.bits) :
    StoredAt a sz.bytes s (s.storeValue sz a v) := by
  simpa [State.storeValue] using
    storedAt_storeBytes s a (valueBytes s.cfg.byteOrder sz.bytes v.toNat)

/-- The slot of a push and RSP after it; no other register changes (R164). -/
theorem pushed_result (hwf : s.mem.wf = true) (v : BitVec sz.bits) :
    (s.pushed sz v).memValue sz (s.pushAddr sz) = v ∧
      (s.pushed sz v).reg 7 = s.reg 7 - BitVec.ofNat 64 sz.bytes ∧
      StoredAt (s.pushAddr sz) sz.bytes s (s.pushed sz v) ∧
      SameRegsBut (fun k => k = 7) s (s.pushed sz v) :=
  ⟨memValue_storeValue hwf (s.pushAddr sz) v, State.setReg_reg_same _ _ _,
    storedAt_storeValue s (s.pushAddr sz) v, fun _ hk => State.setReg_reg_ne _ _ hk⟩

theorem popped_rsp (s : State) (sz : Size) :
    (s.popped sz).reg 7 = s.reg 7 + BitVec.ofNat 64 sz.bytes := State.setReg_reg_same _ _ _

theorem popped_sameRegsBut (s : State) (sz : Size) :
    SameRegsBut (fun k => k = 7) s (s.popped sz) := fun _ hk => State.setReg_reg_ne _ _ hk

/-- Where a push stores and a pop loads, for each stack discipline (R164, R165). -/
theorem pushAddr_postDecrement (h : s.cfg.stackDiscipline = .postDecrement) (sz : Size) :
    s.pushAddr sz = s.reg 7 := by simp only [State.pushAddr, h, State.sp]

theorem pushAddr_preDecrement (h : s.cfg.stackDiscipline = .preDecrement) (sz : Size) :
    s.pushAddr sz = s.reg 7 - BitVec.ofNat 64 sz.bytes := by
  simp only [State.pushAddr, h, State.sp]

theorem popAddr_postDecrement (h : s.cfg.stackDiscipline = .postDecrement) (sz : Size) :
    s.popAddr sz = s.reg 7 + BitVec.ofNat 64 sz.bytes := by
  simp only [State.popAddr, h, State.sp]

theorem popAddr_preDecrement (h : s.cfg.stackDiscipline = .preDecrement) (sz : Size) :
    s.popAddr sz = s.reg 7 := by simp only [State.popAddr, h, State.sp]

/-! ### Register destinations -/

/-- A register write changes the register and the count of draws, nothing else (R23). -/
theorem writeView_frame (s : State) (r : Reg) (v : BitVec sz.bits) :
    (s.writeView sz r v).pc = s.pc ∧ (s.writeView sz r v).flags = s.flags ∧
      (s.writeView sz r v).run = s.run ∧ SameMem s (s.writeView sz r v) ∧
      SameSystem s (s.writeView sz r v) ∧ (s.writeView sz r v).draws = drawsAfter s sz := by
  obtain ⟨⟨hsystem, -⟩, hmem, hwritten, hpc, hflags, hrun, -⟩ := writeView_fixed s sz r v
  exact ⟨hpc, hflags, hrun, ⟨fun k => congrArg (Memory.read · k) hmem, hwritten⟩, hsystem,
    writeView_draws s sz r v⟩

/-- A register reads in the view that was written what was written there (R22, R23). -/
theorem readView_writeView (s : State) (r : Reg) (v : BitVec sz.bits) :
    (s.writeView sz r v).readView sz r = v := by
  apply BitVec.eq_of_getLsbD_eq
  intro k hk
  have hbits : sz.bits ≤ 64 := by cases sz <;> decide
  have hnew := writeView_narrowResult s sz r v k (by omega)
  rw [readView_getLsbD _ _ hk, hnew, if_pos hk]

/-! ### Instructions whose accesses are allowed -/

variable {o : Source}

theorem exec_mov_reg (r : Reg) (ho : s.canRead sz o) :
    exec (.mov sz (.reg r) o) s = .next (s.writeView sz r (s.sourceValue sz o)) := by
  show execMov sz (.reg r) o s = _
  rw [execMov, source_of_canRead ho]
  rfl

theorem exec_mov_mem {a : Word} (ho : s.canRead sz o) (ha : s.accessible a sz.bytes) :
    exec (.mov sz (.mem a) o) s = .next (s.storeValue sz a (s.sourceValue sz o)) := by
  show execMov sz (.mem a) o s = _
  rw [execMov, source_of_canRead ho]
  exact congrArg (complete s) (memWrite_of_accessible ha _)

theorem exec_push_of_accessible (ho : s.canRead sz o)
    (hslot : s.accessible (s.pushAddr sz) sz.bytes) :
    exec (.push sz o) s = .next (s.pushed sz (s.sourceValue sz o)) := by
  show execPush sz o s = _
  rw [execPush, source_of_canRead ho]
  exact congrArg (complete s) (push_of_accessible hslot _)

/-- POP to a register writes the popped value over the raised RSP, should the register be RSP
(R165). -/
theorem exec_pop_reg {t : State} {v : BitVec sz.bits} (r : Reg) (hpop : s.pop sz = .ok (v, t)) :
    exec (.pop sz (.reg r)) s = .next (t.writeView sz r v) := by
  show execPop sz (.reg r) s = _
  rw [execPop, hpop]
  rfl

theorem exec_pop_mem {a : Word} (hslot : s.accessible (s.popAddr sz) sz.bytes)
    (ha : s.accessible a sz.bytes) :
    exec (.pop sz (.mem a)) s =
      .next ((s.popped sz).storeValue sz a (s.memValue sz (s.popAddr sz))) := by
  have ha' : (s.popped sz).accessible a sz.bytes := ha
  show execPop sz (.mem a) s = _
  rw [execPop, pop_of_accessible hslot]
  exact congrArg (complete s) (memWrite_of_accessible ha' _)

theorem exec_call_of_canRead (hslot : s.accessible (s.pushAddr .q) 8) (ho : s.canRead .q o) :
    exec (.call o) s =
      .next ((s.pushed .q s.pc).setPc ((s.pushed .q s.pc).sourceValue .q o)) := by
  have ho' : (s.pushed .q s.pc).canRead .q o := by cases o <;> exact ho
  show execCall o s = _
  rw [execCall, push_of_accessible hslot]
  dsimp only
  rw [source_of_canRead ho']
  rfl

theorem exec_ret_of_accessible (hslot : s.accessible (s.popAddr .q) 8) :
    exec .ret s = .next ((s.popped .q).setPc (s.memValue .q (s.popAddr .q))) :=
  exec_ret_of_pop (pop_of_accessible hslot)

theorem exec_jmp_of_canRead (ho : s.canRead .q o) :
    exec (.jmp o) s = .next (s.setPc (s.sourceValue .q o)) := by
  show execJmp o s = _
  rw [execJmp, source_of_canRead ho]
  rfl

theorem exec_jne_of_canRead (ho : s.canRead .q o) :
    exec (.jne o) s = .next (if s.flags.ZF then s else s.setPc (s.sourceValue .q o)) := by
  show execJne o s = _
  rw [execJne, source_of_canRead ho]
  rfl

end

/-! ### Data movement -/

/-- Settles O45: the register write of the source's value. -/
theorem movToRegister : Obligations.MovToRegister := fun s sz r _ ho =>
  ⟨_, exec_mov_reg r ho, writeView_narrowResult s sz r _, writeView_sameRegsBut s sz r _,
    writeView_frame s r _⟩

/-- Settles O46: the store of the source's value. -/
theorem movToMemory : Obligations.MovToMemory := fun s _ a _ hwf ho ha =>
  ⟨_, exec_mov_mem ho ha, memValue_storeValue hwf a _, storedAt_storeValue s a _, fun _ _ => rfl,
    rfl, rfl, rfl, ⟨rfl, rfl, rfl, rfl, rfl, rfl⟩, rfl⟩

/-- Settles O47: the source is read in the old state, so it is the old value that is pushed. -/
theorem pushResult : Obligations.PushResult := by
  intro s sz o hwf ho hslot
  obtain ⟨hvalue, hrsp, hstored, hregs⟩ := pushed_result hwf (s.sourceValue sz o)
  exact ⟨(pushAddr_postDecrement · sz), (pushAddr_preDecrement · sz), _,
    exec_push_of_accessible ho hslot, hvalue, hrsp, hstored, hregs, rfl, rfl, rfl,
    ⟨rfl, rfl, rfl, rfl, rfl, rfl⟩, rfl⟩

/-- Settles O48: the register write happens in the state whose RSP is raised already. -/
theorem popToRegister : Obligations.PopToRegister := by
  intro s sz r hslot
  have hpopped (k : Reg) : (s.popped sz).reg k =
      if k = 7 then s.reg 7 + BitVec.ofNat 64 sz.bytes else s.reg k := State.setReg_reg s 7 k _
  have hother := writeView_sameRegsBut (s.popped sz) sz r (s.memValue sz (s.popAddr sz))
  refine ⟨(popAddr_postDecrement · sz), (popAddr_preDecrement · sz), _,
    exec_pop_reg r (pop_of_accessible hslot), ?value, fun hr => ?rsp, fun k hk => ?regs,
    writeView_frame (s.popped sz) r _⟩
  case value =>
    rw [← hpopped]
    exact writeView_narrowResult (s.popped sz) sz r _
  case rsp => rw [hother 7 (Ne.symm hr), popped_rsp]
  case regs =>
    rw [not_or] at hk
    rw [hother k hk.1, popped_sameRegsBut s sz k hk.2]

/-- Settles O49: the value comes from the old slot, and the store leaves the raised RSP alone. -/
theorem popToMemory : Obligations.PopToMemory := fun s sz a hwf hslot ha =>
  ⟨_, exec_pop_mem hslot ha, memValue_storeValue (s := s.popped sz) hwf a _, popped_rsp s sz,
    storedAt_storeValue (s.popped sz) a _, popped_sameRegsBut s sz, rfl, rfl, rfl,
    ⟨rfl, rfl, rfl, rfl, rfl, rfl⟩, rfl⟩

/-- A PUSH that completes has pushed the value its operand had. -/
theorem exec_push_push {s t : State} {sz : Size} {o : Source} (h : exec (.push sz o) s = .next t)
    (hrun : t.run = .running) : s.push sz (s.sourceValue sz o) = .ok t := by
  obtain ⟨-, hpush⟩ | ⟨c, htrap, -⟩ := execPush_next h
  · exact hpush
  · exact absurd hrun (trapped_not_running htrap)

/-- Settles O50: the pop undoes the push, and the register write changes only the register. -/
theorem popUndoesPush : Obligations.PopUndoesPush := by
  intro s t sz o r hwf _ hexec hrun
  have hpush := exec_push_push hexec hrun
  have hpop := pop_of_push hwf hpush (u := t) ⟨rfl, rfl, rfl, rfl, rfl⟩
  have hother := writeView_sameRegsBut (t.setReg Reg.rsp s.sp) sz r (s.sourceValue sz o)
  obtain ⟨-, -, -, hmem, -⟩ := writeView_frame (t.setReg Reg.rsp s.sp) r (s.sourceValue sz o)
  refine ⟨_, exec_pop_reg r hpop, readView_writeView _ r _, fun hr => ?rsp, fun k hk => ?regs, hmem⟩
  case rsp => rw [hother 7 (Ne.symm hr)]; exact State.setReg_rsp_sp t s.sp
  case regs =>
    rw [not_or] at hk
    obtain ⟨-, rfl⟩ := (push_ok_iff _ _ _ _).1 hpush
    rw [hother k hk.1, State.setReg_reg_ne _ _ hk.2]
    exact State.setReg_reg_ne _ _ hk.2

/-! ### Control transfer -/

/-- Settles O51: the operand is read in the state that the push left. -/
theorem callResult : Obligations.CallResult := by
  intro s o hwf hslot ho
  obtain ⟨hvalue, hrsp, hstored, hregs⟩ := pushed_result (sz := .q) hwf s.pc
  have htarget : ((s.pushed .q s.pc).setPc ((s.pushed .q s.pc).sourceValue .q o)).sourceValue .q o =
      (s.pushed .q s.pc).sourceValue .q o := by cases o <;> rfl
  exact ⟨_, exec_call_of_canRead hslot ho, htarget.symm, hvalue, hrsp, hstored, hregs, rfl, rfl,
    ⟨rfl, rfl, rfl, rfl, rfl, rfl⟩, rfl⟩

/-- Settles O52: the pop of the slot, with `pc` set to the value. -/
theorem retResult : Obligations.RetResult := fun s hslot =>
  ⟨_, exec_ret_of_accessible hslot, rfl, popped_rsp s .q, popped_sameRegsBut s .q, rfl, rfl,
    ⟨fun _ => rfl, rfl⟩, ⟨rfl, rfl, rfl, rfl, rfl, rfl⟩, rfl⟩

/-- Settles O54: only `pc` is written. -/
theorem jmpResult : Obligations.JmpResult := fun _ _ ho =>
  ⟨_, exec_jmp_of_canRead ho, rfl, fun _ _ => rfl, rfl, rfl, ⟨fun _ => rfl, rfl⟩,
    ⟨rfl, rfl, rfl, rfl, rfl, rfl⟩, rfl⟩

/-- Settles O55: ZF decides between the state as it is and the one with `pc` written. -/
theorem jneResult : Obligations.JneResult := by
  intro s o ho
  rw [exec_jne_of_canRead ho]
  cases hZF : s.flags.ZF with
  | true =>
    exact ⟨s, rfl, nofun, fun _ => rfl, fun _ _ => rfl, rfl, rfl, ⟨fun _ => rfl, rfl⟩,
      ⟨rfl, rfl, rfl, rfl, rfl, rfl⟩, rfl⟩
  | false =>
    exact ⟨s.setPc (s.sourceValue .q o), rfl, fun _ => rfl, nofun, fun _ _ => rfl, rfl, rfl,
      ⟨fun _ => rfl, rfl⟩, ⟨rfl, rfl, rfl, rfl, rfl, rfl⟩, rfl⟩

/-- Settles O39: HLT sets the run state. -/
theorem hltHalts : Obligations.HltHalts := fun s =>
  ⟨s.setRun .halted, rfl, rfl, rfl, fun _ _ => rfl, rfl, ⟨fun _ => rfl, rfl⟩,
    ⟨rfl, rfl, rfl, rfl, rfl, rfl⟩, rfl⟩

end Sys2Proof.Machine
end

section
/-! Codes, flags and data types (R30, R63, R65, R74, R201, R202, R210): the ranges of the code
table, the bits of EFLAGS, the signed view of a bit vector and what the flags of CMP say of a
difference. -/

namespace Sys2Proof.Machine

/-! ### Signed values -/

/-- The signed view of R63 is the two's complement value of the library. -/
theorem signedValue_eq_toInt {n : Nat} (v : BitVec n) : signedValue v = v.toInt := by
  rw [BitVec.toInt_eq_msb_cond]
  rfl

theorem signedValue_neg_iff {n : Nat} (v : BitVec n) : signedValue v < 0 ↔ v.msb = true := by
  rw [signedValue_eq_toInt, BitVec.msb_eq_toInt, decide_eq_true_iff]

/-- The signed value is the unsigned one less 2^n for a set top bit. -/
theorem signedValue_eq_sub_topBit {n : Nat} (v : BitVec n) :
    signedValue v = (v.toNat : Int) - 2 ^ n * (v.getLsbD (n - 1)).toNat := by
  rw [signedValue, ← BitVec.msb_eq_getLsbD_last]
  cases v.msb <;> simp

theorem signedValue_range {n : Nat} (v : BitVec n) :
    -2 ^ n ≤ 2 * signedValue v ∧ 2 * signedValue v < 2 ^ n := by
  rw [signedValue_eq_toInt]
  exact ⟨BitVec.le_two_mul_toInt, BitVec.two_mul_toInt_lt⟩

theorem toNat_sub_eq_mod {n : Nat} (va vb : BitVec n) :
    (va - vb).toNat = (va.toNat + 2 ^ n - vb.toNat) % 2 ^ n := by
  have hlt := vb.isLt
  rw [BitVec.toNat_sub]
  congr 1
  omega

/-- The difference in the signed view is the signed difference up to a multiple of 2^n (R201). -/
theorem signedValue_sub {n : Nat} (va vb : BitVec n) :
    ∃ q : Int, signedValue (va - vb) = signedValue va - signedValue vb + q * 2 ^ n := by
  have hsplit := Int.bmod_add_bdiv (va.toInt - vb.toInt) (2 ^ n)
  refine ⟨-(va.toInt - vb.toInt).bdiv (2 ^ n), ?_⟩
  simp only [signedValue_eq_toInt, BitVec.toInt_sub]
  push_cast at hsplit
  linarith

/-- Settles O57: signed values are two's complement, and each flag is read off the two views. -/
theorem flagsDescribeTheDifference : Obligations.FlagsDescribeTheDifference := by
  intro n f va vb
  refine ⟨fun v => ⟨signedValue_eq_sub_topBit v, signedValue_range v⟩, toNat_sub_eq_mod va vb,
    signedValue_sub va vb, ?CF, ?ZF, ?ZFsigned, ?SF, ?OF⟩
  case CF => rw [compareFlags_CF_iff]; omega
  case ZF => rw [compareFlags_ZF_iff, BitVec.toNat_inj.symm]; omega
  case ZFsigned =>
    rw [compareFlags_ZF_iff, signedValue_eq_toInt, signedValue_eq_toInt, sub_eq_zero,
      BitVec.toInt_inj]
  case SF =>
    rw [signedValue_neg_iff]
    rfl
  case OF =>
    rw [signedValue_neg_iff, signedValue_neg_iff, ← Bool.eq_iff_iff]
    exact bne_iff_ne

/-! ### EFLAGS -/

theorem getLsbD_append_ofBool {w : Nat} (x : BitVec w) (b : Bool) (k : Nat) :
    (x ++ BitVec.ofBool b).getLsbD k = if k = 0 then b else x.getLsbD (k - 1) := by
  rw [BitVec.getLsbD_append]
  cases k <;> simp

/-- EFLAGS is laid out flag by flag: the last flag of the concatenation is bit 0 (R30). -/
theorem toBits_getLsbD (f : Eflags) (k : Nat) :
    f.toBits.getLsbD k = [f.CF, f.ZF, f.SF, f.TF, f.IF, f.OF, f.ID, f.RF].getD k false := by
  simp only [Eflags.toBits, getLsbD_append_ofBool]
  match k with
  | 0 | 1 | 2 | 3 | 4 | 5 | 6 => rfl
  | k + 7 => cases k <;> simp

/-- Settles O58: bit `k` of EFLAGS is the `k`-th flag, and the flags are read from those bits. -/
theorem eflagsPositions : Obligations.EflagsPositions := by
  intro f
  have hback : Eflags.ofBits f.toBits = f := by
    simp only [Eflags.ofBits, toBits_getLsbD]
    rfl
  exact ⟨toBits_getLsbD f 0, toBits_getLsbD f 1, toBits_getLsbD f 2, toBits_getLsbD f 3,
    toBits_getLsbD f 4, toBits_getLsbD f 5, toBits_getLsbD f 6, toBits_getLsbD f 7, hback⟩

/-! ### Codes -/

/-- The codes from 32 on have the last row of the table (R225). -/
theorem codeKind_eq_maskable_iff (c : Code) : codeKind c = .maskable ↔ 32 ≤ c.toNat := by
  unfold codeKind
  split
  case h_14 => split <;> simp <;> omega
  all_goals
    simp only [reduceCtorEq, false_iff]
    omega

theorem externalCode_toNat (n : Fin 224) : (externalCode n).toNat = 32 + n.val := by
  rw [externalCode, BitVec.toNat_ofNat]
  omega

/-- The external codes are the codes from 32 on (R225, R228). -/
theorem exists_externalCode_iff (c : Code) : (∃ n, externalCode n = c) ↔ 32 ≤ c.toNat := by
  constructor
  · rintro ⟨n, rfl⟩
    rw [externalCode_toNat]
    omega
  · intro h
    have hlt : c.toNat - 32 < 224 := by have := c.isLt; omega
    refine ⟨⟨c.toNat - 32, hlt⟩, BitVec.eq_of_toNat_eq ?_⟩
    rw [externalCode_toNat]
    exact Nat.add_sub_cancel' h

/-- Settles O59: the table's last two rows, and the external codes begin where the last does. -/
theorem codeRanges : Obligations.CodeRanges := fun c =>
  ⟨codeKind_eq_reserved_iff c, codeKind_eq_maskable_iff c,
    (codeKind_eq_maskable_iff c).trans (exists_externalCode_iff c).symm⟩

/-! ### Far pointers -/

/-- Settles O60: quotient and remainder by 2^48. -/
theorem farPointerSplit : Obligations.FarPointerSplit := by
  intro a
  have hlt := a.isLt
  rw [segmentOf, subAddressOf, BitVec.extractLsb'_toNat, BitVec.extractLsb'_toNat,
    Nat.shiftRight_eq_div_pow, Nat.shiftRight_zero]
  omega

end Sys2Proof.Machine
end
